-- ==== Sys2Proof/Word.lean ====
section
/-! DEFINITION. The word types of the machine: what spec/00_scope.md R5 and R6 treat as bits.

Every value of this hardware is unsigned (R5: "the hardware has no signed quantity anywhere"). -/

namespace Sys2Proof

/-- 8 bits: a V register, a timer, a memory byte, the immediate `kk` (R4, R5). -/
abbrev Byte := BitVec 8

/-- 16 bits: an instruction word, I, PC, a stack slot (R13, R14, R15, R60). -/
abbrev Word := BitVec 16

/-- 4 bits: a register index `x` or `y`, the immediate `n`, a key number (R5, R61). -/
abbrev Nibble := BitVec 4

/-- 12 bits: the address immediate `nnn` (R5, R61). -/
abbrev Addr := BitVec 12

end Sys2Proof
end

