-- ==== Sys2Proof/Syntax.lean ====
section
/-! DEFINITION. The 35 instructions: one constructor per row of spec/opcode_table.json, in the table's order
(spec/30_encoding.md R64), each carrying the fields its format has (R62). -/

namespace Sys2Proof

/-- The instructions. The comment of each constructor is its pattern, the normative name (R70). -/
inductive Instr where
  /-- `00E0` CLS -/
  | cls
  /-- `00EE` RET -/
  | ret
  /-- `0nnn` SYS -/
  | sys (nnn : Addr)
  /-- `1nnn` JP -/
  | jp (nnn : Addr)
  /-- `2nnn` CALL -/
  | call (nnn : Addr)
  /-- `3xkk` SE_IMM -/
  | seImm (x : Nibble) (kk : Byte)
  /-- `4xkk` SNE_IMM -/
  | sneImm (x : Nibble) (kk : Byte)
  /-- `5xy0` SE_REG -/
  | seReg (x y : Nibble)
  /-- `6xkk` LD_IMM -/
  | ldImm (x : Nibble) (kk : Byte)
  /-- `7xkk` ADD_IMM -/
  | addImm (x : Nibble) (kk : Byte)
  /-- `8xy0` LD_REG -/
  | ldReg (x y : Nibble)
  /-- `8xy1` OR -/
  | orReg (x y : Nibble)
  /-- `8xy2` AND -/
  | andReg (x y : Nibble)
  /-- `8xy3` XOR -/
  | xorReg (x y : Nibble)
  /-- `8xy4` ADD_REG -/
  | addReg (x y : Nibble)
  /-- `8xy5` SUB -/
  | sub (x y : Nibble)
  /-- `8xy6` SHR; `y` is encoded and ignored (R62) -/
  | shr (x y : Nibble)
  /-- `8xy7` SUBN -/
  | subn (x y : Nibble)
  /-- `8xyE` SHL; `y` is encoded and ignored (R62) -/
  | shl (x y : Nibble)
  /-- `9xy0` SNE_REG -/
  | sneReg (x y : Nibble)
  /-- `Annn` LD_I -/
  | ldI (nnn : Addr)
  /-- `Bnnn` JP_V0 -/
  | jpV0 (nnn : Addr)
  /-- `Cxkk` RND -/
  | rnd (x : Nibble) (kk : Byte)
  /-- `Dxyn` DRW -/
  | drw (x y n : Nibble)
  /-- `Ex9E` SKP -/
  | skp (x : Nibble)
  /-- `ExA1` SKNP -/
  | sknp (x : Nibble)
  /-- `Fx07` LD_VX_DT -/
  | ldVxDt (x : Nibble)
  /-- `Fx0A` LD_VX_K -/
  | ldVxK (x : Nibble)
  /-- `Fx15` LD_DT_VX -/
  | ldDtVx (x : Nibble)
  /-- `Fx18` LD_ST_VX -/
  | ldStVx (x : Nibble)
  /-- `Fx1E` ADD_I -/
  | addI (x : Nibble)
  /-- `Fx29` LD_F -/
  | ldF (x : Nibble)
  /-- `Fx33` LD_B -/
  | ldB (x : Nibble)
  /-- `Fx55` ST_REGS -/
  | stRegs (x : Nibble)
  /-- `Fx65` LD_REGS -/
  | ldRegs (x : Nibble)
  deriving DecidableEq, Repr

end Sys2Proof
end

