-- ==== Sys2Proof/WellFormed.lean ====
section
/-! DEFINITION. Which instructions have an encoding. -/

namespace Sys2Proof

/-- Whether an instruction has a word that stands for it. The one check: SYS has every address field
but those of `00E0` and `00EE`, which take precedence over `0nnn` (spec/30_encoding.md R64, R66).
Every other operand has as many values as its field, and all of them are legal (R65). -/
def Instr.wellFormed : Instr → Bool
  | .sys nnn => nnn != 0x0E0#12 && nnn != 0x0EE#12
  | .cls | .ret | .jp _ | .call _ | .seImm _ _ | .sneImm _ _ | .seReg _ _ | .ldImm _ _
  | .addImm _ _ | .ldReg _ _ | .orReg _ _ | .andReg _ _ | .xorReg _ _ | .addReg _ _ | .sub _ _
  | .shr _ _ | .subn _ _ | .shl _ _ | .sneReg _ _ | .ldI _ | .jpV0 _ | .rnd _ _ | .drw _ _ _
  | .skp _ | .sknp _ | .ldVxDt _ | .ldVxK _ | .ldDtVx _ | .ldStVx _ | .addI _ | .ldF _ | .ldB _
  | .stRegs _ | .ldRegs _ => true

end Sys2Proof
end

