-- ==== Sys2Proof/Decode.lean ====
section
/-! DEFINITION. The decoder, total on any word, and the encoder beside it.

The decoder is the opcode map of spec/30_encoding.md R64 as data: a word selects the first row with
`op & mask = match`. The encoder is written from the formats of R62, nibble by nibble. -/

namespace Sys2Proof

/-! ## Fields (R61) -/

/-- Field `x`, bits 11:8. -/
def fieldX (op : Word) : Nibble := op.extractLsb' 8 4

/-- Field `y`, bits 7:4. -/
def fieldY (op : Word) : Nibble := op.extractLsb' 4 4

/-- Field `n`, bits 3:0. -/
def fieldN (op : Word) : Nibble := op.extractLsb' 0 4

/-- Field `kk`, bits 7:0. -/
def fieldKK (op : Word) : Byte := op.extractLsb' 0 8

/-- Field `nnn`, bits 11:0. -/
def fieldNNN (op : Word) : Addr := op.extractLsb' 0 12

/-! ## The opcode map (R64) -/

/-- One row of the opcode map. -/
structure OpcodeRow where
  /-- the bits the row fixes -/
  mask : Word
  /-- the value it fixes them at -/
  value : Word
  /-- the instruction, from the word's fields -/
  build : Word → Instr

/-- Whether a word selects a row: `op & mask = match` (R64). -/
def OpcodeRow.selects (row : OpcodeRow) (op : Word) : Bool := op &&& row.mask == row.value

/-- Rows 1 to 10, top nibbles 0 to 7. `00E0` and `00EE` stand before `0nnn`. -/
def opcodeRowsLow : List OpcodeRow := [
  ⟨0xFFFF, 0x00E0, fun _ => .cls⟩,
  ⟨0xFFFF, 0x00EE, fun _ => .ret⟩,
  ⟨0xF000, 0x0000, fun op => .sys (fieldNNN op)⟩,
  ⟨0xF000, 0x1000, fun op => .jp (fieldNNN op)⟩,
  ⟨0xF000, 0x2000, fun op => .call (fieldNNN op)⟩,
  ⟨0xF000, 0x3000, fun op => .seImm (fieldX op) (fieldKK op)⟩,
  ⟨0xF000, 0x4000, fun op => .sneImm (fieldX op) (fieldKK op)⟩,
  ⟨0xF00F, 0x5000, fun op => .seReg (fieldX op) (fieldY op)⟩,
  ⟨0xF000, 0x6000, fun op => .ldImm (fieldX op) (fieldKK op)⟩,
  ⟨0xF000, 0x7000, fun op => .addImm (fieldX op) (fieldKK op)⟩]

/-- Rows 11 to 19, top nibble 8. -/
def opcodeRowsAlu : List OpcodeRow := [
  ⟨0xF00F, 0x8000, fun op => .ldReg (fieldX op) (fieldY op)⟩,
  ⟨0xF00F, 0x8001, fun op => .orReg (fieldX op) (fieldY op)⟩,
  ⟨0xF00F, 0x8002, fun op => .andReg (fieldX op) (fieldY op)⟩,
  ⟨0xF00F, 0x8003, fun op => .xorReg (fieldX op) (fieldY op)⟩,
  ⟨0xF00F, 0x8004, fun op => .addReg (fieldX op) (fieldY op)⟩,
  ⟨0xF00F, 0x8005, fun op => .sub (fieldX op) (fieldY op)⟩,
  ⟨0xF00F, 0x8006, fun op => .shr (fieldX op) (fieldY op)⟩,
  ⟨0xF00F, 0x8007, fun op => .subn (fieldX op) (fieldY op)⟩,
  ⟨0xF00F, 0x800E, fun op => .shl (fieldX op) (fieldY op)⟩]

/-- Rows 20 to 26, top nibbles 9 to E. -/
def opcodeRowsHigh : List OpcodeRow := [
  ⟨0xF00F, 0x9000, fun op => .sneReg (fieldX op) (fieldY op)⟩,
  ⟨0xF000, 0xA000, fun op => .ldI (fieldNNN op)⟩,
  ⟨0xF000, 0xB000, fun op => .jpV0 (fieldNNN op)⟩,
  ⟨0xF000, 0xC000, fun op => .rnd (fieldX op) (fieldKK op)⟩,
  ⟨0xF000, 0xD000, fun op => .drw (fieldX op) (fieldY op) (fieldN op)⟩,
  ⟨0xF0FF, 0xE09E, fun op => .skp (fieldX op)⟩,
  ⟨0xF0FF, 0xE0A1, fun op => .sknp (fieldX op)⟩]

/-- Rows 27 to 35, top nibble F. -/
def opcodeRowsF : List OpcodeRow := [
  ⟨0xF0FF, 0xF007, fun op => .ldVxDt (fieldX op)⟩,
  ⟨0xF0FF, 0xF00A, fun op => .ldVxK (fieldX op)⟩,
  ⟨0xF0FF, 0xF015, fun op => .ldDtVx (fieldX op)⟩,
  ⟨0xF0FF, 0xF018, fun op => .ldStVx (fieldX op)⟩,
  ⟨0xF0FF, 0xF01E, fun op => .addI (fieldX op)⟩,
  ⟨0xF0FF, 0xF029, fun op => .ldF (fieldX op)⟩,
  ⟨0xF0FF, 0xF033, fun op => .ldB (fieldX op)⟩,
  ⟨0xF0FF, 0xF055, fun op => .stRegs (fieldX op)⟩,
  ⟨0xF0FF, 0xF065, fun op => .ldRegs (fieldX op)⟩]

/-- The opcode map, 35 rows in the order of R64. -/
def opcodeTable : List OpcodeRow := opcodeRowsLow ++ opcodeRowsAlu ++ opcodeRowsHigh ++ opcodeRowsF

/-! ## The decoder -/

/-- Why a word is no instruction. -/
inductive DecodeReject where
  /-- The word selects no row of the opcode map (R65); the cycle that fetched it raises UnknownOpcode
  (spec/60_exceptions.md R175). -/
  | unknownOpcode (op : Word)
  deriving DecidableEq, Repr

/-- The instruction a word stands for: the first row it selects (R64), or a rejection by name (R65). -/
def decodeWord (op : Word) : Except DecodeReject Instr :=
  match opcodeTable.find? (·.selects op) with
  | some row => .ok (row.build op)
  | none => .error (.unknownOpcode op)

/-- The word two consecutive bytes form, the byte at the lower address in bits 15:8 (R60; R45). -/
def wordOfBytes (hi lo : Byte) : Word := hi ++ lo

/-- The decoder on the two bytes it always consumes (R60). -/
def decodeBytes (hi lo : Byte) : Except DecodeReject Instr := decodeWord (wordOfBytes hi lo)

/-- The byte of `w` that stands first in memory (R45). -/
def highByte (w : Word) : Byte := w.extractLsb' 8 8

/-- The byte of `w` that stands second in memory (R45). -/
def lowByte (w : Word) : Byte := w.extractLsb' 0 8

/-- The instruction word that the low `nbits` bits of `w` are, every bit above them 0. -/
def tableWord (nbits w : Nat) : Word := BitVec.ofNat 16 (w % 2 ^ nbits)

/-- What the decoder reads from an instruction whose bits are `w`, numbered as the opcode table
numbers them: the word laid out as the hardware stores it, high byte first, then decoded. -/
def decodeTableWord (nbits w : Nat) : Option Instr :=
  (decodeBytes (highByte (tableWord nbits w)) (lowByte (tableWord nbits w))).toOption

/-! ## The encoder (R62) -/

/-- Format FIXED, XY, X and XYN: four nibbles, bits 15:12 first. -/
def wordOfNibbles (t a b c : Nibble) : Word := t ++ a ++ b ++ c

/-- Format NNN: `t` and a 12-bit address. -/
def wordNNN (t : Nibble) (nnn : Addr) : Word := t ++ nnn

/-- Formats XKK and X: `t`, a register and a low byte. -/
def wordXKK (t x : Nibble) (kk : Byte) : Word := t ++ x ++ kk

/-- The word of a well-formed instruction. -/
def encode : Instr → Word
  | .cls => wordOfNibbles 0x0 0x0 0xE 0x0
  | .ret => wordOfNibbles 0x0 0x0 0xE 0xE
  | .sys nnn => wordNNN 0x0 nnn
  | .jp nnn => wordNNN 0x1 nnn
  | .call nnn => wordNNN 0x2 nnn
  | .seImm x kk => wordXKK 0x3 x kk
  | .sneImm x kk => wordXKK 0x4 x kk
  | .seReg x y => wordOfNibbles 0x5 x y 0x0
  | .ldImm x kk => wordXKK 0x6 x kk
  | .addImm x kk => wordXKK 0x7 x kk
  | .ldReg x y => wordOfNibbles 0x8 x y 0x0
  | .orReg x y => wordOfNibbles 0x8 x y 0x1
  | .andReg x y => wordOfNibbles 0x8 x y 0x2
  | .xorReg x y => wordOfNibbles 0x8 x y 0x3
  | .addReg x y => wordOfNibbles 0x8 x y 0x4
  | .sub x y => wordOfNibbles 0x8 x y 0x5
  | .shr x y => wordOfNibbles 0x8 x y 0x6
  | .subn x y => wordOfNibbles 0x8 x y 0x7
  | .shl x y => wordOfNibbles 0x8 x y 0xE
  | .sneReg x y => wordOfNibbles 0x9 x y 0x0
  | .ldI nnn => wordNNN 0xA nnn
  | .jpV0 nnn => wordNNN 0xB nnn
  | .rnd x kk => wordXKK 0xC x kk
  | .drw x y n => wordOfNibbles 0xD x y n
  | .skp x => wordXKK 0xE x 0x9E
  | .sknp x => wordXKK 0xE x 0xA1
  | .ldVxDt x => wordXKK 0xF x 0x07
  | .ldVxK x => wordXKK 0xF x 0x0A
  | .ldDtVx x => wordXKK 0xF x 0x15
  | .ldStVx x => wordXKK 0xF x 0x18
  | .addI x => wordXKK 0xF x 0x1E
  | .ldF x => wordXKK 0xF x 0x29
  | .ldB x => wordXKK 0xF x 0x33
  | .stRegs x => wordXKK 0xF x 0x55
  | .ldRegs x => wordXKK 0xF x 0x65

end Sys2Proof
end

