-- ==== Sys2Proof/Machine/Flags.lean ====
section
/-! DEFINITION. What VF becomes: every flag computation of the spec, each 0 or 1 and each computed from the operands
as they were before the instruction (spec/10_state.md R12, spec/30_encoding.md R69). -/

namespace Sys2Proof.Machine

/-- A flag as the byte VF holds: 1 or 0 (R12). -/
def flagByte (b : Bool) : Byte := if b then 1 else 0

/-- `8xy4`: the carry out of bit 7, 1 when the 9-bit sum exceeds 255 (spec/41_alu.md R106). -/
def carryFlag (a b : Byte) : Byte := flagByte (decide (a.toNat + b.toNat > 255))

/-- `8xy5` and `8xy7`: NOT borrow of `a - b`, 1 when `a >= b` (R107, R109). -/
def notBorrowFlag (a b : Byte) : Byte := flagByte (decide (a.toNat ≥ b.toNat))

/-- `8xy6`: the bit shifted out, `a & 1` (R108). -/
def shrFlag (a : Byte) : Byte := a &&& 1

/-- `8xyE`: the bit shifted out, `(a >> 7) & 1` (R110). -/
def shlFlag (a : Byte) : Byte := (a >>> 7) &&& 1

/-- `Dxyn`: 1 when a plotted pixel went from 1 to 0 (spec/43_display.md R141). -/
def collisionFlag (hit : Bool) : Byte := flagByte hit

end Sys2Proof.Machine
end

