-- ==== Sys2Proof/Config.lean ====
section
/-! DEFINITION. What an implementation fixes (spec/00_scope.md R4, its "open" column) and the free values.

The constants without a body are FREE: nothing in Lean can evaluate them, so a statement about them
holds for every value they could have. -/

namespace Sys2Proof.Config

/-- The byte a random source seeded with `seed` gives at its draw number `drawn` (0 is the first).
FREE: the source is "an opaque byte source" (R187, R23; spec/92_eei_decisions.md D14; 93 U1).
DESIGN CHOICE, log entry 1: the state of the generator is its seed and how many bytes it has drawn. -/
opaque rngByte (seed drawn : Nat) : Byte

/-- One less than CYCLES_PER_TICK. FREE: the count is an open parameter (R4, R182; D13; 93 U3). -/
opaque cyclesPerTickLessOne : Nat

/-- CYCLES_PER_TICK: how many instruction cycles one TICK command runs, a positive integer fixed for
the life of a machine (R4, R182, R24 (a)). Log entry 3. -/
def cyclesPerTick : Nat := cyclesPerTickLessOne + 1

/-- The default of CYCLES_PER_TICK, ceil(500 / 60) = 9 (R4, R182; D13). No rule depends on it. -/
def defaultCyclesPerTick : Nat := (500 + 59) / 60

/-- The seed `State.reset` is made with. DESIGN CHOICE, log entry 2: RESET takes its seed from the
host (R210), and the model's one reset state must name one. -/
def resetSeed : Nat := 0

end Sys2Proof.Config
end

