-- ==== Sys2Proof/Machine/State.lean ====
section
/-! DEFINITION. The state of the machine as plain data: the tuple of spec/10_state.md R10, field by field, and
the state after reset (R26, R211).

"Nothing else is state" (R10). What the host keeps (the program image, the key map, wall-clock time)
is not here (R24). -/

namespace Sys2Proof.Machine

/-- The four fault kinds of the hardware (spec/60_exceptions.md R170), the "kind" of a fault record.

Raising one is an effect the spec describes: it writes the fault record and halts the machine (R171,
R172). So it is a NEXT state, with `State.fault` set. No step answers the outcome `.fault`: each
docstring says who records the kind. -/
inductive Fault where
  /-- "program exceeds 3584 bytes": recorded by the host command LOAD (R176). Never an outcome of a
  step. Safe: the record and the halt are what the spec describes. -/
  | loadTooLarge
  /-- "CALL with SP == 16": recorded by `2nnn` (R173). Safe: what the spec describes. -/
  | stackOverflow
  /-- "RETURN with SP == 0": recorded by `00EE` (R174). Safe: what the spec describes. -/
  | stackUnderflow
  /-- "decoder sees an unclassified bit pattern": recorded by the cycle that fetched the word (R175).
  Safe: what the spec describes. -/
  | unknownOpcode
  deriving DecidableEq, Repr

/-- Why a step has no meaning. -/
inductive Refusal where
  /-- The instruction named has no meaning in this model yet. Raised by no arm of `exec`: every
  instruction has its meaning. Safe: a refusal proves nothing. -/
  | notModelled (mnemonic : String)
  deriving DecidableEq, Repr

/-- The fault record `Some(kind, pc)` (R22): "the core exposes the fault and the faulting PC". -/
structure FaultRecord where
  /-- which of the four kinds -/
  kind : Fault
  /-- the value PC held when the fault was raised -/
  pc : Word
  deriving DecidableEq, Repr

/-- `RngState`, the state of the random source (R23, R187). The spec leaves its type open (`Rng`).
DESIGN CHOICE, log entry 1: the seed and how many bytes have been drawn. -/
structure Rng where
  /-- what RESET was given -/
  seed : Nat
  /-- how many bytes `rand()` has given since -/
  drawn : Nat
  deriving DecidableEq, Repr

/-- Memory as plain data (R17, R40): the bytes that differ from their reset contents, by address, the
addresses strictly rising. `Memory.wf` (Machine/Ops.lean) says the form. An address that is not
listed reads as its reset contents. -/
abbrev Memory := List Host.Cell

/-- The framebuffer (R18): 32 rows from the top, each of 64 cells from the left. -/
abbrev Framebuffer := Vector (Vector Bool 64) 32

/-- The complete state of one machine instance (R10). -/
structure State where
  /-- `V[0..15]`, 8 bits each; `V[15]` is VF (R11, R12) -/
  v : Vector Byte 16
  /-- `I`, 16 bits (R13) -/
  i : Word
  /-- `PC`, 16 bits, bits 15:12 always 0 (R14) -/
  pc : Word
  /-- `SP`, 0 to 16, the next free slot (R15) -/
  sp : Fin 17
  /-- `Stack[0..15]`, 16 bits each (R15) -/
  stack : Vector Word 16
  /-- `DT`, the delay timer (R16) -/
  dt : Byte
  /-- `ST`, the sound timer (R16) -/
  st : Byte
  /-- `Mem[0..4095]` (R17) -/
  mem : Memory
  /-- `FB[0..63, 0..31]` (R18) -/
  fb : Framebuffer
  /-- `Key[0..15]`, true is pressed (R19) -/
  keys : Vector Bool 16
  /-- `Wait`, the wait latch (R20) -/
  wait : Option Nibble
  /-- `KeyEv`, the captured key event (R20) -/
  keyEv : Option Nibble
  /-- `Dirty`, the display-dirty flag (R21) -/
  dirty : Bool
  /-- `Fault`, the fault record (R22) -/
  fault : Option FaultRecord
  /-- `RngState` (R23) -/
  rng : Rng
  deriving DecidableEq, Repr

/-- The state after RESET(seed) (R26, R210, R211), the `RngState` of a fresh generator with that seed.
Memory lists nothing, so that every byte reads as its reset contents. -/
def State.resetWith (seed : Nat) : State where
  v := Vector.replicate 16 0
  i := 0
  pc := 0x200
  sp := 0
  stack := Vector.replicate 16 0
  dt := 0
  st := 0
  mem := []
  fb := Vector.replicate 32 (Vector.replicate 64 false)
  keys := Vector.replicate 16 false
  wait := none
  keyEv := none
  dirty := false
  fault := none
  rng := ⟨seed, 0⟩

/-- The machine right after reset, with the seed the configuration names (log entry 2). -/
def State.reset : State := State.resetWith Config.resetSeed

end Sys2Proof.Machine
end

