-- ==== Sys2Proof/Machine/Ops.lean ====
section
/-! DEFINITION. The named operations over memory, registers, stack, framebuffer, keypad and random source, and
raising a fault.

Every read and write of a piece of state goes through these (spec/00_scope.md R6 names them). -/

namespace Sys2Proof.Machine

/-! ## Reset contents of memory (spec/20_memory.md R42, R43) -/

/-- The font's glyphs 0 to 7, five bytes each from the top row down. Glyphs 0 and 1 are the source's;
2 to 7 are the spec's general knowledge (R43, rows marked G). PRESUMED, log entry 4. -/
def fontGlyphsLow : List Byte :=
  [0xF0, 0x90, 0x90, 0x90, 0xF0] ++ [0x20, 0x60, 0x20, 0x20, 0x70] ++
  [0xF0, 0x10, 0xF0, 0x80, 0xF0] ++ [0xF0, 0x10, 0xF0, 0x10, 0xF0] ++
  [0x90, 0x90, 0xF0, 0x10, 0x10] ++ [0xF0, 0x80, 0xF0, 0x10, 0xF0] ++
  [0xF0, 0x80, 0xF0, 0x90, 0xF0] ++ [0xF0, 0x10, 0x20, 0x40, 0x40]

/-- The font's glyphs 8 to F (R43, rows marked G). PRESUMED, log entry 4. -/
def fontGlyphsHigh : List Byte :=
  [0xF0, 0x90, 0xF0, 0x90, 0xF0] ++ [0xF0, 0x90, 0xF0, 0x10, 0xF0] ++
  [0xF0, 0x90, 0xF0, 0x90, 0x90] ++ [0xE0, 0x90, 0xE0, 0x90, 0xE0] ++
  [0xF0, 0x80, 0x80, 0x80, 0xF0] ++ [0xE0, 0x90, 0x90, 0x90, 0xE0] ++
  [0xF0, 0x80, 0xF0, 0x80, 0xF0] ++ [0xF0, 0x80, 0xF0, 0x80, 0x80]

/-- The font table, 80 bytes from 0x050 (R43). -/
def fontTable : List Byte := fontGlyphsLow ++ fontGlyphsHigh

/-- What address `a` holds after reset, and so what an unlisted address reads as: the font at 0x050 to
0x09F, 0x00 everywhere else (R42, R43; spec/10_state.md R26). -/
def resetByte (a : Nat) : Byte := if 0x050 ≤ a then fontTable.getD (a - 0x050) 0 else 0

/-! ## Memory in its one canonical form -/

/-- The listed byte at `a`, if there is one. -/
def Memory.lookup : Memory → Nat → Option Byte
  | [], _ => none
  | (k, c) :: m, a => if k = a then some c else Memory.lookup m a

/-- `Mem[a]`. -/
def Memory.read (m : Memory) (a : Nat) : Byte := (Memory.lookup m a).getD (resetByte a)

/-- List `b` at `a`, keeping the addresses rising. -/
def Memory.insert : Memory → Nat → Byte → Memory
  | [], a, b => [(a, b)]
  | (k, c) :: m, a, b =>
    if a < k then (a, b) :: (k, c) :: m
    else if a = k then (a, b) :: m
    else (k, c) :: Memory.insert m a b

/-- List nothing at `a`. -/
def Memory.erase : Memory → Nat → Memory
  | [], _ => []
  | (k, c) :: m, a => if k = a then Memory.erase m a else (k, c) :: Memory.erase m a

/-- `Mem[a] <- b`: a byte equal to its reset contents is not listed. -/
def Memory.write (m : Memory) (a : Nat) (b : Byte) : Memory :=
  if b = resetByte a then Memory.erase m a else Memory.insert m a b

/-- The canonical form from address `lo` up: addresses strictly rising from `lo`, all inside the 4096
bytes (R40), no entry equal to what an unlisted address reads as. -/
def Memory.wfFrom : Nat → Memory → Bool
  | _, [] => true
  | lo, (k, c) :: m => decide (lo ≤ k) && decide (k < 4096) && c != resetByte k && Memory.wfFrom (k + 1) m

/-- The canonical form of memory. -/
def Memory.wf (m : Memory) : Bool := Memory.wfFrom 0 m

/-- An address as every access uses it: masked to 12 bits, `addr & 0xFFF` (R41). -/
def maskAddr (addr : Nat) : Nat := addr % 4096

/-- `MemRead(addr, 1)` (R41). No access faults. -/
def State.memRead (s : State) (addr : Nat) : Byte := Memory.read s.mem (maskAddr addr)

/-- `MemWrite(addr, 1, b)` (R41). -/
def State.memWrite (s : State) (addr : Nat) (b : Byte) : State :=
  { s with mem := Memory.write s.mem (maskAddr addr) b }

/-- Write consecutive bytes from `addr` up, in order (R188: the loader's copy). -/
def State.memWriteList (s : State) (addr : Nat) : List Byte → State
  | [] => s
  | b :: bs => (s.memWrite addr b).memWriteList (addr + 1) bs

/-! ## General registers (R11, R12) -/

/-- `V[x]`. -/
def State.getV (s : State) (x : Nibble) : Byte := s.v[x.toNat]'(by have := x.isLt; omega)

/-- `V[x] <- b`. -/
def State.setV (s : State) (x : Nibble) (b : Byte) : State :=
  { s with v := s.v.set x.toNat b (by have := x.isLt; omega) }

/-- The number of VF (R12). -/
def vf : Nibble := 15

/-- The VF-last rule (spec/30_encoding.md R69): the result goes to `V[x]`, then the flag to VF, so that
with `x = 15` the flag wins. Both were computed from the registers as they were before. -/
def State.setResultThenFlag (s : State) (x : Nibble) (result flag : Byte) : State :=
  (s.setV x result).setV vf flag

/-! ## The return stack (R15) -/

/-- `Stack[SP] <- a; SP <- SP + 1`, for SP below 16 (spec/40_flow.md R83). -/
def State.push (s : State) (a : Word) (h : s.sp.val < 16) : State :=
  { s with stack := s.stack.set s.sp.val a h, sp := ⟨s.sp.val + 1, by omega⟩ }

/-- The slot a pop reads, `Stack[SP - 1]`, for SP above 0 (R81). -/
def State.top (s : State) (h : 0 < s.sp.val) : Word :=
  s.stack[s.sp.val - 1]'(by have := s.sp.isLt; omega)

/-- `SP <- SP - 1`; the popped slot keeps its bits (R15, R81). -/
def State.pop (s : State) : State :=
  { s with sp := ⟨s.sp.val - 1, by have := s.sp.isLt; omega⟩ }

/-! ## Framebuffer cells (R18) -/

/-- `FB[px, py]`; a place outside the 64 by 32 plane has no cell and reads as off. -/
def Framebuffer.cell (fb : Framebuffer) (px py : Nat) : Bool :=
  if h : px < 64 ∧ py < 32 then (fb[py]'h.2)[px]'h.1 else false

/-- `FB[px, py] <- b`; a place outside the plane has no cell to write. -/
def Framebuffer.setCell (fb : Framebuffer) (px py : Nat) (b : Bool) : Framebuffer :=
  if h : px < 64 ∧ py < 32 then fb.set py ((fb[py]'h.2).set px b h.1) h.2 else fb

/-- The plane with every cell 0 (spec/43_display.md R140). -/
def Framebuffer.clear : Framebuffer := Vector.replicate 32 (Vector.replicate 64 false)

/-! ## Keypad (R19) -/

/-- `Key[k]`. -/
def State.key (s : State) (k : Nibble) : Bool := s.keys[k.toNat]'(by have := k.isLt; omega)

/-- `Key[k] <- b`. -/
def State.setKey (s : State) (k : Nibble) (b : Bool) : State :=
  { s with keys := s.keys.set k.toNat b (by have := k.isLt; omega) }

/-! ## The random source (spec/60_exceptions.md R187) -/

/-- `rng_seed`: a fresh generator. -/
def rngSeed (seed : Nat) : Rng := ⟨seed, 0⟩

/-- `rng_next`: the next byte, a free value, and the generator after it. -/
def rngNext (g : Rng) : Byte × Rng := (Config.rngByte g.seed g.drawn, ⟨g.seed, g.drawn + 1⟩)

/-- `rand()`: draws the next byte and advances RngState (R187, R6). -/
def State.rand (s : State) : Byte × State :=
  ((rngNext s.rng).1, { s with rng := (rngNext s.rng).2 })

/-! ## Raising a fault (R171), and what returns from one -/

/-- `raise K(pc)`: the record is written with the value PC holds, and nothing else changes (R171; D8).
PC keeps the address of the faulting instruction. The machine is then halted (R172). Nothing returns
from a fault: there is no handler, no saved-PC register and no return instruction (R179); RESET is
the one way out, and it is `State.resetWith` (spec/70_reset_and_hazards.md R210). -/
def State.raise (s : State) (kind : Fault) : State := { s with fault := some ⟨kind, s.pc⟩ }

end Sys2Proof.Machine
end

