-- ==== Sys2Proof/Machine/Operands.lean ====
section
/-! DEFINITION. The operand forms: what an instruction computes from PC, I, a register or an immediate before it acts.

The register form is `State.getV` (Machine/Ops.lean); the immediates `kk` and `n` are used as they
are; nothing is sign-extended, scaled or shifted (spec/30_encoding.md R63). -/

namespace Sys2Proof.Machine

/-! ## PC (spec/00_scope.md R6, spec/30_encoding.md R68; the mask is decision D1) -/

/-- `NEXT = (PC + 2) & 0xFFF`. -/
def State.nextPc (s : State) : Word := (s.pc + 2) &&& 0x0FFF

/-- `SKIP = (PC + 4) & 0xFFF`. -/
def State.skipPc (s : State) : Word := (s.pc + 4) &&& 0x0FFF

/-- `PC <- NEXT`. -/
def State.advance (s : State) : State := { s with pc := s.nextPc }

/-- `if c: PC <- SKIP else: PC <- NEXT`: the skip instructions. -/
def State.skipIf (s : State) (c : Bool) : State := { s with pc := if c then s.skipPc else s.nextPc }

/-- `PC <- target`, the target masked already. -/
def State.jumpTo (s : State) (target : Word) : State := { s with pc := target }

/-! ## Immediates and addresses -/

/-- `zext_16(nnn)` (R63, R120). -/
def immAddr (nnn : Addr) : Word := nnn.setWidth 16

/-- `(nnn + V[0]) & 0xFFF`: the target of `Bnnn` (spec/40_flow.md R84). -/
def State.indexedTarget (s : State) (nnn : Addr) : Word :=
  (immAddr nnn + (s.getV 0).setWidth 16) &&& 0x0FFF

/-- `I + offset`, the address of a data access before the mask of R41 (R63). -/
def State.addrI (s : State) (offset : Nat) : Nat := s.i.toNat + offset

/-- `V[x] & 0x0F`: the key a skip tests (spec/44_keypad_timers.md R150). -/
def State.keyIndex (s : State) (x : Nibble) : Nibble := (s.getV x &&& 0x0F).setWidth 4

/-- `0x050 + 5 * (V[x] & 0x0F)`: the glyph's address (spec/42_index_memory.md R122). -/
def State.glyphAddr (s : State) (x : Nibble) : Word := 0x050 + 5 * (s.getV x &&& 0x0F).setWidth 16

/-- The hundreds digit, `v / 100` (R123). -/
def bcdHundreds (v : Byte) : Byte := BitVec.ofNat 8 (v.toNat / 100)

/-- The tens digit, `(v / 10) mod 10` (R123). -/
def bcdTens (v : Byte) : Byte := BitVec.ofNat 8 (v.toNat / 10 % 10)

/-- The ones digit, `v mod 10` (R123). -/
def bcdOnes (v : Byte) : Byte := BitVec.ofNat 8 (v.toNat % 10)

/-- The column of a sprite's origin, `V[x] mod 64` (spec/43_display.md R141). -/
def State.originX (s : State) (x : Nibble) : Nat := (s.getV x).toNat % 64

/-- The row of a sprite's origin, `V[y] mod 32` (R141). -/
def State.originY (s : State) (y : Nibble) : Nat := (s.getV y).toNat % 32

end Sys2Proof.Machine
end

