-- ==== Sys2Proof/Machine/Alu.lean ====
section
/-! DEFINITION. Register load, arithmetic, logic, shifts and random (spec/41_alu.md R100 to R112).

Values are unsigned bytes and arithmetic is modulo 256 (R112), which is what addition, subtraction
and shifts of `Byte` are. -/

namespace Sys2Proof.Machine

/-- `6xkk` LD_IMM: `V[x] <- kk` (R100). -/
def execLdImm (x : Nibble) (kk : Byte) (s : State) : Host.Outcome State Fault Refusal :=
  .next (s.setV x kk).advance

/-- `7xkk` ADD_IMM: `V[x] <- (V[x] + kk) mod 256`, no flag (R101). -/
def execAddImm (x : Nibble) (kk : Byte) (s : State) : Host.Outcome State Fault Refusal :=
  .next (s.setV x (s.getV x + kk)).advance

/-- `8xy0` LD_REG: `V[x] <- V[y]` (R102). -/
def execLdReg (x y : Nibble) (s : State) : Host.Outcome State Fault Refusal :=
  .next (s.setV x (s.getV y)).advance

/-- `8xy1` OR (R103). -/
def execOr (x y : Nibble) (s : State) : Host.Outcome State Fault Refusal :=
  .next (s.setV x (s.getV x ||| s.getV y)).advance

/-- `8xy2` AND (R104). -/
def execAnd (x y : Nibble) (s : State) : Host.Outcome State Fault Refusal :=
  .next (s.setV x (s.getV x &&& s.getV y)).advance

/-- `8xy3` XOR (R105). -/
def execXor (x y : Nibble) (s : State) : Host.Outcome State Fault Refusal :=
  .next (s.setV x (s.getV x ^^^ s.getV y)).advance

/-- `8xy4` ADD_REG: the sum modulo 256, then VF = carry (R106). -/
def execAddReg (x y : Nibble) (s : State) : Host.Outcome State Fault Refusal :=
  .next (s.setResultThenFlag x (s.getV x + s.getV y) (carryFlag (s.getV x) (s.getV y))).advance

/-- `8xy5` SUB: `V[x] - V[y]` modulo 256, then VF = NOT borrow (R107). -/
def execSub (x y : Nibble) (s : State) : Host.Outcome State Fault Refusal :=
  .next (s.setResultThenFlag x (s.getV x - s.getV y) (notBorrowFlag (s.getV x) (s.getV y))).advance

/-- `8xy6` SHR: `V[x] >> 1`, then VF = the old bit 0; `y` is ignored (R108; D15). -/
def execShr (x _y : Nibble) (s : State) : Host.Outcome State Fault Refusal :=
  .next (s.setResultThenFlag x (s.getV x >>> 1) (shrFlag (s.getV x))).advance

/-- `8xy7` SUBN: `V[y] - V[x]` modulo 256, then VF = NOT borrow (R109). -/
def execSubn (x y : Nibble) (s : State) : Host.Outcome State Fault Refusal :=
  .next (s.setResultThenFlag x (s.getV y - s.getV x) (notBorrowFlag (s.getV y) (s.getV x))).advance

/-- `8xyE` SHL: `V[x] << 1` modulo 256, then VF = the old bit 7; `y` is ignored (R110; D15). -/
def execShl (x _y : Nibble) (s : State) : Host.Outcome State Fault Refusal :=
  .next (s.setResultThenFlag x (s.getV x <<< 1) (shlFlag (s.getV x))).advance

/-- `Cxkk` RND: one byte is drawn, also when `kk = 0`, and `V[x] <- r & kk` (R111). -/
def execRnd (x : Nibble) (kk : Byte) (s : State) : Host.Outcome State Fault Refusal :=
  .next (s.rand.2.setV x (s.rand.1 &&& kk)).advance

end Sys2Proof.Machine
end

