-- ==== Sys2Proof/Machine/Display.lean ====
section
/-! DEFINITION. The display: clear, and the sprite XOR rasterizer written as the loops of spec/43_display.md R141. -/

namespace Sys2Proof.Machine

/-- `00E0` CLS: every cell 0, Dirty set (R140). -/
def execCls (s : State) : Host.Outcome State Fault Refusal :=
  .next { s with fb := Framebuffer.clear, dirty := true }.advance

/-- Bit `b` of a sprite row from the left: `(byte >> (7 - b)) & 1`, bit 7 is the leftmost pixel. -/
def spriteBit (byte : Byte) (b : Nat) : Bool := byte.getLsbD (7 - b)

/-- The plane while a sprite is drawn, and whether a pixel has gone from 1 to 0 yet. -/
abbrev Plot := Framebuffer × Bool

/-- The body of the inner loop for column `b` (R141): a pixel right of column 63 is dropped, with no
read, no write and no collision. -/
def plotPixel (byte : Byte) (x0 py b : Nat) (p : Plot) : Plot :=
  if x0 + b ≤ 63 then
    let old := Framebuffer.cell p.1 (x0 + b) py
    let new := old ^^ spriteBit byte b
    (Framebuffer.setCell p.1 (x0 + b) py new, p.2 || (old && !new))
  else p

/-- The inner loop for the first `count` columns, ascending. -/
def plotRow (byte : Byte) (x0 py : Nat) : Nat → Plot → Plot
  | 0, p => p
  | b + 1, p => plotPixel byte x0 py b (plotRow byte x0 py b p)

/-- The outer loop for the first `count` rows, ascending: row `r` has the byte at `I + r`; a row below
row 31 is dropped. -/
def State.plotRows (s : State) (x0 y0 : Nat) : Nat → Plot → Plot
  | 0, p => p
  | r + 1, p =>
    if y0 + r ≤ 31 then plotRow (s.memRead (s.addrI r)) x0 (y0 + r) 8 (s.plotRows x0 y0 r p)
    else s.plotRows x0 y0 r p

/-- The whole draw: the origin wraps, from `V[x]` and `V[y]` as they are before VF is touched (R69,
D6), and no collision is recorded at the start. -/
def State.drawn (s : State) (x y n : Nibble) : Plot :=
  s.plotRows (s.originX x) (s.originY y) n.toNat (s.fb, false)

/-- `Dxyn` DRW: the sprite is drawn, VF is the collision flag, Dirty is set; `n = 0` draws no row
(R141; D5). -/
def execDrw (x y n : Nibble) (s : State) : Host.Outcome State Fault Refusal :=
  .next ({ s with fb := (s.drawn x y n).1, dirty := true }.setV vf
    (collisionFlag (s.drawn x y n).2)).advance

end Sys2Proof.Machine
end

