-- ==== Sys2Proof/Machine/Flow.lean ====
section
/-! DEFINITION. Control transfer: `0nnn`, `00EE`, `1nnn`, `2nnn`, `Bnnn`, `3xkk`, `4xkk`, `5xy0`, `9xy0`
(spec/40_flow.md R80 to R88). -/

namespace Sys2Proof.Machine

/-- `0nnn` SYS: ignored, PC advances; `nnn` is unused (R80). -/
def execSys (_nnn : Addr) (s : State) : Host.Outcome State Fault Refusal := .next s.advance

/-- `00EE` RET: StackUnderflow if SP = 0; else SP goes down and PC is the slot, with no further
advance (R81; conflict C1, decision D3). -/
def execRet (s : State) : Host.Outcome State Fault Refusal :=
  if h : s.sp.val = 0 then .next (s.raise .stackUnderflow)
  else .next (s.pop.jumpTo (s.top (by omega)))

/-- `1nnn` JP: PC is `nnn` (R82). -/
def execJp (nnn : Addr) (s : State) : Host.Outcome State Fault Refusal := .next (s.jumpTo (immAddr nnn))

/-- `2nnn` CALL: StackOverflow if SP = 16; else NEXT is pushed and PC is `nnn` (R83). -/
def execCall (nnn : Addr) (s : State) : Host.Outcome State Fault Refusal :=
  if h : s.sp.val = 16 then .next (s.raise .stackOverflow)
  else .next ((s.push s.nextPc (by have := s.sp.isLt; omega)).jumpTo (immAddr nnn))

/-- `Bnnn` JP_V0: PC is `(nnn + V[0]) & 0xFFF` (R84). -/
def execJpV0 (nnn : Addr) (s : State) : Host.Outcome State Fault Refusal :=
  .next (s.jumpTo (s.indexedTarget nnn))

/-- `3xkk` SE_IMM: skip if `V[x] = kk` (R85). -/
def execSeImm (x : Nibble) (kk : Byte) (s : State) : Host.Outcome State Fault Refusal :=
  .next (s.skipIf (s.getV x == kk))

/-- `4xkk` SNE_IMM: skip if `V[x] != kk` (R86). -/
def execSneImm (x : Nibble) (kk : Byte) (s : State) : Host.Outcome State Fault Refusal :=
  .next (s.skipIf (s.getV x != kk))

/-- `5xy0` SE_REG: skip if `V[x] = V[y]` (R87). -/
def execSeReg (x y : Nibble) (s : State) : Host.Outcome State Fault Refusal :=
  .next (s.skipIf (s.getV x == s.getV y))

/-- `9xy0` SNE_REG: skip if `V[x] != V[y]` (R88). -/
def execSneReg (x y : Nibble) (s : State) : Host.Outcome State Fault Refusal :=
  .next (s.skipIf (s.getV x != s.getV y))

end Sys2Proof.Machine
end

