-- ==== Sys2Proof/Machine/IndexMemory.lean ====
section
/-! DEFINITION. The index register and the memory transfers (spec/42_index_memory.md R120 to R125). No transfer
changes I. -/

namespace Sys2Proof.Machine

/-- `Annn` LD_I: `I <- zext_16(nnn)` (R120). -/
def execLdI (nnn : Addr) (s : State) : Host.Outcome State Fault Refusal :=
  .next { s with i := immAddr nnn }.advance

/-- `Fx1E` ADD_I: `I <- (I + V[x]) & 0xFFFF`, no flag (R121). -/
def execAddI (x : Nibble) (s : State) : Host.Outcome State Fault Refusal :=
  .next { s with i := s.i + (s.getV x).setWidth 16 }.advance

/-- `Fx29` LD_F: I is the address of the glyph of `V[x] & 0x0F` (R122). -/
def execLdF (x : Nibble) (s : State) : Host.Outcome State Fault Refusal :=
  .next { s with i := s.glyphAddr x }.advance

/-- `Fx33` LD_B: hundreds, tens and ones of `V[x]` to I, I + 1, I + 2, in that order (R123). -/
def execLdB (x : Nibble) (s : State) : Host.Outcome State Fault Refusal :=
  .next (((s.memWrite (s.addrI 0) (bcdHundreds (s.getV x))).memWrite (s.addrI 1)
    (bcdTens (s.getV x))).memWrite (s.addrI 2) (bcdOnes (s.getV x))).advance

/-- Store V0 to V`(count - 1)` from I up, ascending: the loop of R124. -/
def State.storeRegs (s : State) : Nat → State
  | 0 => s
  | k + 1 => (s.storeRegs k).memWrite (s.addrI k) (s.getV (BitVec.ofNat 4 k))

/-- `Fx55` ST_REGS: `Mem[I + i] <- V[i]` for i = 0 to x (R124; I unchanged, D15). -/
def execStRegs (x : Nibble) (s : State) : Host.Outcome State Fault Refusal :=
  .next (s.storeRegs (x.toNat + 1)).advance

/-- Load V0 to V`(count - 1)` from I up, ascending: the loop of R125. -/
def State.loadRegs (s : State) : Nat → State
  | 0 => s
  | k + 1 => (s.loadRegs k).setV (BitVec.ofNat 4 k) (s.memRead (s.addrI k))

/-- `Fx65` LD_REGS: `V[i] <- Mem[I + i]` for i = 0 to x (R125; I unchanged, D15). -/
def execLdRegs (x : Nibble) (s : State) : Host.Outcome State Fault Refusal :=
  .next (s.loadRegs (x.toNat + 1)).advance

end Sys2Proof.Machine
end

