-- ==== Sys2Proof/Machine/KeypadTimers.lean ====
section
/-! DEFINITION. Keypad skips, the key wait and timer access (spec/44_keypad_timers.md R150 to R156). -/

namespace Sys2Proof.Machine

/-- `Ex9E` SKP: skip if the key `V[x] & 0x0F` is pressed (R150). -/
def execSkp (x : Nibble) (s : State) : Host.Outcome State Fault Refusal :=
  .next (s.skipIf (s.key (s.keyIndex x)))

/-- `ExA1` SKNP: skip if the key `V[x] & 0x0F` is not pressed (R151). -/
def execSknp (x : Nibble) (s : State) : Host.Outcome State Fault Refusal :=
  .next (s.skipIf (!s.key (s.keyIndex x)))

/-- `Fx0A` LD_VX_K, the issuing cycle: the latch is set and PC is not written (R152). -/
def execLdVxK (x : Nibble) (s : State) : Host.Outcome State Fault Refusal :=
  .next { s with wait := some x }

/-- The completion of a key wait by the captured key `k` (R153): `V[x] <- k`, zero-extended, the latch
and the event are cleared, PC advances from the `Fx0A`. -/
def State.completeWait (s : State) (x k : Nibble) : State :=
  { s.setV x (k.setWidth 8) with wait := none, keyEv := none }.advance

/-- A cycle while `Wait = Some x` (R153): completion if a key event was captured, else no change. -/
def State.waitCycle (s : State) (x : Nibble) : State :=
  match s.keyEv with
  | some k => s.completeWait x k
  | none => s

/-- `Fx07` LD_VX_DT: `V[x] <- DT` (R154). -/
def execLdVxDt (x : Nibble) (s : State) : Host.Outcome State Fault Refusal :=
  .next (s.setV x s.dt).advance

/-- `Fx15` LD_DT_VX: `DT <- V[x]` (R155). -/
def execLdDtVx (x : Nibble) (s : State) : Host.Outcome State Fault Refusal :=
  .next { s with dt := s.getV x }.advance

/-- `Fx18` LD_ST_VX: `ST <- V[x]` (R156). -/
def execLdStVx (x : Nibble) (s : State) : Host.Outcome State Fault Refusal :=
  .next { s with st := s.getV x }.advance

end Sys2Proof.Machine
end

