-- ==== Sys2Proof/Machine/Cycle.lean ====
section
/-! DEFINITION. The instruction cycle (spec/30_encoding.md R67): halted, then key wait, then fetch, decode, execute. -/

namespace Sys2Proof.Machine

/-- The bytes a fetch reads: `MemRead(PC, 1)`, `MemRead(PC + 1, 1)`, high byte first (R60; spec/20_memory.md
R45, R46: no alignment, the second address wraps). -/
def State.fetchWord (s : State) : Word :=
  wordOfBytes (s.memRead s.pc.toNat) (s.memRead (s.pc.toNat + 1))

/-- The third branch of a cycle: fetch, decode, execute; a word that selects no row raises UnknownOpcode
(R67, R65; spec/60_exceptions.md R175). -/
def State.runInstruction (s : State) : Host.Outcome State Fault Refusal :=
  match decodeWord s.fetchWord with
  | .ok i => exec i s
  | .error _ => .next (s.raise .unknownOpcode)

/-- CYCLE (R67): exactly one of four things, in this order of checks (R177). -/
def cycle (s : State) : Host.Outcome State Fault Refusal :=
  match s.fault with
  | some _ => .next s
  | none =>
    match s.wait with
    | some x => .next (s.waitCycle x)
    | none => s.runInstruction

/-- The state whose very next cycle fetches and runs the word `w`: its bytes stand at PC and PC + 1,
high byte first, and no fault record and no key wait keeps the cycle from fetching. -/
def State.placeWord (s : State) (w : Word) : State :=
  { (s.memWrite s.pc.toNat (highByte w)).memWrite (s.pc.toNat + 1) (lowByte w) with
    fault := none, wait := none, keyEv := none }

end Sys2Proof.Machine
end

