-- ==== Sys2Proof/Machine/Step.lean ====
section
/-! DEFINITION. One step of the machine is the STEP command: exactly one CYCLE (spec/60_exceptions.md R183). -/

namespace Sys2Proof.Machine

/-- STEP (R183). -/
def step (s : State) : Host.Outcome State Fault Refusal := cycle s

/-- `s` with the word that the low `nbits` bits of `w` are standing where the next step fetches
(log entry 5 says how a program comes to run from reset). -/
def State.withFetchWord (s : State) (nbits w : Nat) : State := s.placeWord (tableWord nbits w)

end Sys2Proof.Machine
end

