-- ==== Sys2Proof/Machine/Commands.lean ====
section
/-! DEFINITION. The host interface (spec/60_exceptions.md R189): the seven commands and the outputs, each atomic.

A command answers a next state; what it reports to the host is `reply`, read from the state the command
found. STEP is `step`. -/

namespace Sys2Proof.Machine

/-! ## TICK (R182) -/

/-- "if r > 0: r <- r - 1": a timer at 0 stays at 0 (R181, R182; conflict C9). -/
def countDown (r : Byte) : Byte := if r = 0 then 0 else r - 1

/-- Both decrements at the end of a TICK (R182). -/
def State.countTimers (s : State) : State := { s with dt := countDown s.dt, st := countDown s.st }

/-- Up to `n` cycles, ending at a fault (R182; R172: "a fault mid-tick ends the tick"). -/
def runCycles : Nat → State → Host.Outcome State Fault Refusal
  | 0, s => .next s
  | n + 1, s =>
    match cycle s with
    | .next t => if t.fault.isSome then .next t else runCycles n t
    | .fault r => .fault r
    | .refused r => .refused r

/-- TICK on a machine whose CYCLES_PER_TICK is `n` (R182): nothing if halted; `n` cycles; then both
timers, unless a cycle raised a fault. -/
def tickOf (n : Nat) (s : State) : Host.Outcome State Fault Refusal :=
  if s.fault.isSome then .next s
  else
    match runCycles n s with
    | .next t => if t.fault.isSome then .next t else .next t.countTimers
    | .fault r => .fault r
    | .refused r => .refused r

/-! ## PRESS, RELEASE, CONSUME_DIRTY (R185, R186) -/

/-- PRESS(k) (R185): a released key goes down, and the transition is captured if the core waits on
`Fx0A` and has captured none yet; a key already down is no transition. -/
def press (k : Nibble) (s : State) : State :=
  if s.key k then s
  else
    let t := s.setKey k true
    if s.wait.isSome && s.keyEv.isNone then { t with keyEv := some k } else t

/-- RELEASE(k) (R185). -/
def release (k : Nibble) (s : State) : State := s.setKey k false

/-- CONSUME_DIRTY (R186): clears the flag; the value it had is the reply. -/
def consumeDirty (s : State) : State := { s with dirty := false }

/-! ## LOAD (R188) -/

/-- What LOAD reports. -/
inductive LoadReport where
  /-- the image was copied -/
  | ok
  /-- the image is longer than 3584 bytes (R176) -/
  | tooLarge
  /-- the machine is halted: the fault recorded already (R172) -/
  | halted (f : FaultRecord)
  deriving DecidableEq, Repr

/-- The longest image LOAD accepts, 4096 - 0x200 (R4, R188). -/
def maxProgramBytes : Nat := 3584

/-- LOAD(bytes) (R188): nothing if halted; LoadTooLarge with memory unchanged if the image is too
long; else the bytes go to 0x200 and up, and nothing else changes. -/
def load (bytes : List Byte) (s : State) : State :=
  if s.fault.isSome then s
  else if bytes.length > maxProgramBytes then s.raise .loadTooLarge
  else s.memWriteList 0x200 bytes

/-- What LOAD(bytes) reports (R188). -/
def loadReport (bytes : List Byte) (s : State) : LoadReport :=
  match s.fault with
  | some f => .halted f
  | none => if bytes.length > maxProgramBytes then .tooLarge else .ok

/-! ## The interface as a whole (R189) -/

/-- The commands of the host (R189). -/
inductive Command where
  /-- RESET(seed) -/
  | reset (seed : Nat)
  /-- LOAD(bytes) -/
  | load (bytes : List Byte)
  /-- TICK -/
  | tick
  /-- STEP -/
  | step
  /-- PRESS(k) -/
  | press (k : Nibble)
  /-- RELEASE(k) -/
  | release (k : Nibble)
  /-- CONSUME_DIRTY -/
  | consumeDirty
  deriving DecidableEq, Repr

/-- What a command returns to the host (R189). -/
inductive Reply where
  /-- the command returns nothing -/
  | done
  /-- what LOAD reports -/
  | loaded (r : LoadReport)
  /-- what CONSUME_DIRTY returns -/
  | dirty (b : Bool)
  deriving DecidableEq, Repr

/-- One host command on a machine whose CYCLES_PER_TICK is `n` (R189; R210 for RESET: "nothing
survives a reset"). -/
def commandOf (n : Nat) (c : Command) (s : State) : Host.Outcome State Fault Refusal :=
  match c with
  | .reset seed => .next (State.resetWith seed)
  | .load bytes => .next (Sys2Proof.Machine.load bytes s)
  | .tick => tickOf n s
  | .step => Sys2Proof.Machine.step s
  | .press k => .next (Sys2Proof.Machine.press k s)
  | .release k => .next (Sys2Proof.Machine.release k s)
  | .consumeDirty => .next (Sys2Proof.Machine.consumeDirty s)

/-- One host command on the configured machine. -/
def command (c : Command) (s : State) : Host.Outcome State Fault Refusal :=
  commandOf Config.cyclesPerTick c s

/-- What a command returns, from the state it found (R186, R188, R189). -/
def reply (c : Command) (s : State) : Reply :=
  match c with
  | .load bytes => .loaded (loadReport bytes s)
  | .consumeDirty => .dirty s.dirty
  | .reset _ | .tick | .step | .press _ | .release _ => .done

/-- A sequence of host commands, one after the other (spec/70_reset_and_hazards.md R220: a run is a
finite sequence of commands, and its end state is the state after the last). -/
def runCommandsOf (n : Nat) : List Command → State → Host.Outcome State Fault Refusal
  | [], s => .next s
  | c :: cs, s =>
    match commandOf n c s with
    | .next t => runCommandsOf n cs t
    | .fault r => .fault r
    | .refused r => .refused r

/-! ## Outputs (R184, R186, R189): pure reads -/

/-- `framebuffer()`. -/
def framebuffer (s : State) : Framebuffer := s.fb

/-- `sound_active()`: ST > 0 (R184). -/
def soundActive (s : State) : Bool := decide (s.st.toNat > 0)

/-- `fault()` (R171, R189). -/
def faultOutput (s : State) : Option FaultRecord := s.fault

/-- `frame_due`, valid after a TICK: whether the host should redraw (R182). -/
def frameDue (s : State) : Bool := s.dirty

end Sys2Proof.Machine
end

