-- ==== Sys2Proof/Safety.lean ====
section
/-! DEFINITION. The terms claims use: the invariants of the machine, what a halted, waiting, running or finished
machine is, and frames. -/

namespace Sys2Proof.Machine

/-! ## Invariants (spec/10_state.md R25)

R25 (a) and (d) are facts of the types: `sp : Fin 17`, cells and flags are Bools. -/

/-- What holds in every state reachable by host commands. -/
structure Inv (s : State) : Prop where
  /-- memory keeps its canonical form (the model's own, log entry 6) -/
  mem_wf : Memory.wf s.mem = true
  /-- R25 (b): bits 15:12 of PC are 0 -/
  pc_lt : s.pc.toNat < 4096
  /-- R25 (c): the live slots hold 12-bit addresses -/
  stack_lt : ∀ k : Fin 16, k.val < s.sp.val → s.stack[k].toNat < 4096
  /-- R25 (e): a key event is captured only while the core waits -/
  keyEv_wait : s.keyEv ≠ none → s.wait ≠ none

/-- R25 (f): while the core waits with latch `x`, PC addresses the bytes of the `Fx0A` that set it. A
LOAD during the wait may overwrite them; no other command does. -/
def WaitsAtFx0A (s : State) : Prop :=
  ∀ x : Nibble, s.wait = some x →
    s.memRead s.pc.toNat = 0xF0 ||| x.setWidth 8 ∧ s.memRead (s.pc.toNat + 1) = 0x0A

/-! ## What a cycle finds (spec/60_exceptions.md R192) -/

/-- The third branch of a cycle is taken: not halted, not waiting (spec/30_encoding.md R67). -/
def Running (s : State) : Prop := s.fault = none ∧ s.wait = none

/-- A fault is recorded (R172). -/
def Halted (s : State) : Prop := s.fault ≠ none

/-- The core idles on a key wait: no fault, a latch, no captured event (spec/44_keypad_timers.md R153). -/
def IdleOnKey (s : State) : Prop := s.fault = none ∧ s.wait ≠ none ∧ s.keyEv = none

/-- A finished program, by convention (spec/70_reset_and_hazards.md R220; D21): PC addresses a `1nnn`
whose target is PC, no wait, no fault. -/
def Finished (s : State) : Prop :=
  Running s ∧ ∃ nnn : Addr, decodeWord s.fetchWord = .ok (.jp nnn) ∧ immAddr nnn = s.pc

/-! ## Frames -/

/-- The parts of the state, as frames name them. `stack` is SP and the sixteen slots. -/
inductive Part where
  | v | i | pc | stack | dt | st | mem | fb | keys | wait | keyEv | dirty | fault | rng
  deriving DecidableEq, Repr

/-- A part is the same in two states. Memory is the same when every byte reads the same. -/
def Part.same (p : Part) (s t : State) : Prop :=
  match p with
  | .v => ∀ r : Nibble, t.getV r = s.getV r
  | .i => t.i = s.i
  | .pc => t.pc = s.pc
  | .stack => t.sp = s.sp ∧ t.stack = s.stack
  | .dt => t.dt = s.dt
  | .st => t.st = s.st
  | .mem => ∀ a : Nat, t.memRead a = s.memRead a
  | .fb => t.fb = s.fb
  | .keys => t.keys = s.keys
  | .wait => t.wait = s.wait
  | .keyEv => t.keyEv = s.keyEv
  | .dirty => t.dirty = s.dirty
  | .fault => t.fault = s.fault
  | .rng => t.rng = s.rng

/-- From `s` to `t` every part but those listed is the same. -/
def KeepsAllBut (parts : List Part) (s t : State) : Prop := ∀ p : Part, p ∉ parts → p.same s t

/-- Every V register but those of `rs` is the same. -/
def KeepsRegsBut (rs : List Nibble) (s t : State) : Prop := ∀ r : Nibble, r ∉ rs → t.getV r = s.getV r

/-! ## Which parts an instruction may write, and which flag it writes -/

/-- The parts of the state the rule of an instruction writes, from the rules' pseudocode; every other
part it leaves alone. CALL and RET write either PC and the stack, or the fault record. -/
def writtenParts : Instr → List Part
  | .cls => [.fb, .dirty, .pc]
  | .ret | .call _ => [.pc, .stack, .fault]
  | .sys _ | .jp _ | .jpV0 _ => [.pc]
  | .seImm _ _ | .sneImm _ _ | .seReg _ _ | .sneReg _ _ | .skp _ | .sknp _ => [.pc]
  | .ldImm _ _ | .addImm _ _ | .ldReg _ _ | .orReg _ _ | .andReg _ _ | .xorReg _ _ => [.v, .pc]
  | .addReg _ _ | .sub _ _ | .shr _ _ | .subn _ _ | .shl _ _ => [.v, .pc]
  | .rnd _ _ => [.v, .rng, .pc]
  | .drw _ _ _ => [.v, .fb, .dirty, .pc]
  | .ldI _ | .addI _ | .ldF _ => [.i, .pc]
  | .ldB _ | .stRegs _ => [.mem, .pc]
  | .ldRegs _ | .ldVxDt _ => [.v, .pc]
  | .ldVxK _ => [.wait]
  | .ldDtVx _ => [.dt, .pc]
  | .ldStVx _ => [.st, .pc]

/-- The instructions that write VF as a flag (spec/10_state.md R12). -/
def writesFlag : Instr → Bool
  | .addReg _ _ | .sub _ _ | .shr _ _ | .subn _ _ | .shl _ _ | .drw _ _ _ => true
  | .cls | .ret | .sys _ | .jp _ | .call _ | .seImm _ _ | .sneImm _ _ | .seReg _ _ | .ldImm _ _
  | .addImm _ _ | .ldReg _ _ | .orReg _ _ | .andReg _ _ | .xorReg _ _ | .sneReg _ _ | .ldI _
  | .jpV0 _ | .rnd _ _ | .skp _ | .sknp _ | .ldVxDt _ | .ldVxK _ | .ldDtVx _ | .ldStVx _ | .addI _
  | .ldF _ | .ldB _ | .stRegs _ | .ldRegs _ => false

/-- The `x` field of an instruction whose format has one (spec/30_encoding.md R62). -/
def xField : Instr → Option Nibble
  | .cls | .ret | .sys _ | .jp _ | .call _ | .ldI _ | .jpV0 _ => none
  | .seImm x _ | .sneImm x _ | .ldImm x _ | .addImm x _ | .rnd x _ => some x
  | .seReg x _ | .ldReg x _ | .orReg x _ | .andReg x _ | .xorReg x _ | .addReg x _ | .sub x _
  | .shr x _ | .subn x _ | .shl x _ | .sneReg x _ | .drw x _ _ => some x
  | .skp x | .sknp x | .ldVxDt x | .ldVxK x | .ldDtVx x | .ldStVx x | .addI x | .ldF x | .ldB x
  | .stRegs x | .ldRegs x => some x

/-! ## Sprites, said without the loops (spec/43_display.md R141) -/

/-- Whether a sprite of `n` rows at the origin of `V[x]`, `V[y]` has a 1 bit on the cell `(px, py)`. Asked
of cells of the plane only, so a pixel past the right or the bottom edge is on no cell. -/
def State.spriteOn (s : State) (x y n : Nibble) (px py : Nat) : Bool :=
  let x0 := (s.getV x).toNat % 64
  let y0 := (s.getV y).toNat % 32
  decide (x0 ≤ px ∧ px < x0 + 8 ∧ y0 ≤ py ∧ py < y0 + n.toNat) &&
    (s.memRead (s.i.toNat + (py - y0))).getLsbD (7 - (px - x0))

/-! ## The stack as a program can see it (spec/10_state.md R15) -/

/-- Two states that differ at most in slots at or above SP, which no instruction reads. -/
def SameButFreeSlots (s t : State) : Prop :=
  t = { s with stack := t.stack } ∧ ∀ k : Fin 16, k.val < s.sp.val → t.stack[k] = s.stack[k]

end Sys2Proof.Machine
end

