-- ==== Sys2Proof/Certificates/Slice0/Obligations.lean ====
section
/-! DEFINITION. The statements for the provers: what the numbered rules of spec/ say an instruction or the machine does.

Frames are said with `KeepsAllBut` and `KeepsRegsBut` (Sys2Proof/Safety.lean). `PC <- NEXT` is said with the
model's `nextPc`; that `nextPc` is `(PC + 2) & 0xFFF` is a statement of its own, NextAndSkipAreTwelveBits. -/

open Sys2Proof Sys2Proof.Machine

/-! ## Decoding -/

/-- R64, a word of every format written out from the spec's encodings, and an illegal word. The exact match of
every fixed nibble is the spec's decision D4. -/
def Obligations.SpecWordsDecode : Prop :=
  decodeWord 0x00E0 = .ok .cls ∧
  decodeWord 0x00EE = .ok .ret ∧
  decodeWord 0x00E1 = .ok (.sys 0x0E1) ∧
  decodeWord 0x220A = .ok (.call 0x20A) ∧
  decodeWord 0x3A42 = .ok (.seImm 0xA 0x42) ∧
  decodeWord 0x8F15 = .ok (.sub 0xF 0x1) ∧
  decodeWord 0x822E = .ok (.shl 0x2 0x2) ∧
  decodeWord 0xD125 = .ok (.drw 0x1 0x2 0x5) ∧
  decodeWord 0xE39E = .ok (.skp 0x3) ∧
  decodeWord 0xF355 = .ok (.stRegs 0x3) ∧
  decodeBytes 0xF0 0x90 = .error (.unknownOpcode 0xF090)

/-- R62, R64: the decoder gives back every well-formed instruction from its word, every operand at every value. -/
def Obligations.DecodeInvertsEncode : Prop :=
  ∀ i : Instr, i.wellFormed = true → decodeWord (encode i) = .ok i

/-- R64, R66: a word that decodes is the word of the well-formed instruction it decodes to. -/
def Obligations.EncodeInvertsDecode : Prop :=
  ∀ (op : Word) (i : Instr), decodeWord op = .ok i → i.wellFormed = true ∧ encode i = op

/-- R65: the illegal words are exactly those of the five listed sets (the exact matching is decision D4). -/
def Obligations.IllegalWordsAreTheListedSets : Prop :=
  ∀ op : Word, decodeWord op = .error (.unknownOpcode op) ↔
    (op.toNat / 4096 = 5 ∧ op.toNat % 16 ≠ 0) ∨
    (op.toNat / 4096 = 8 ∧ op.toNat % 16 ∈ [0x8, 0x9, 0xA, 0xB, 0xC, 0xD, 0xF]) ∨
    (op.toNat / 4096 = 9 ∧ op.toNat % 16 ≠ 0) ∨
    (op.toNat / 4096 = 14 ∧ op.toNat % 256 ∉ [0x9E, 0xA1]) ∨
    (op.toNat / 4096 = 15 ∧
      op.toNat % 256 ∉ [0x07, 0x0A, 0x15, 0x18, 0x1E, 0x29, 0x33, 0x55, 0x65])

/-! ## The cycle -/

/-- R60, R67 third branch: with no fault and no wait, a step runs the instruction that the two bytes at PC and
PC + 1 decode to, high byte first, and adds nothing around it. -/
def Obligations.StepRunsTheDecodedInstruction : Prop :=
  ∀ (s : State) (i : Instr), Running s →
    decodeBytes (s.memRead s.pc.toNat) (s.memRead (s.pc.toNat + 1)) = .ok i → step s = exec i s

/-- R175: a fetched word that selects no row records UnknownOpcode with PC. That nothing else changes is the spec's
decision D8 (R171). -/
def Obligations.UnknownOpcodeIsRecorded : Prop :=
  ∀ (s : State) (e : DecodeReject), Running s →
    decodeBytes (s.memRead s.pc.toNat) (s.memRead (s.pc.toNat + 1)) = .error e →
    step s = .next { s with fault := some ⟨.unknownOpcode, s.pc⟩ }

/-- R172 (the spec's decision D8): while a fault is recorded STEP, TICK and LOAD change nothing, LOAD reports the
fault, and no command but RESET changes the record. -/
def Obligations.HaltedMachineIsFrozen : Prop :=
  ∀ (s : State) (f : FaultRecord) (n : Nat), s.fault = some f →
    step s = .next s ∧ tickOf n s = .next s ∧
    (∀ bytes, commandOf n (.load bytes) s = .next s ∧ reply (.load bytes) s = .loaded (.halted f)) ∧
    (∀ c, (∀ seed, c ≠ .reset seed) → ∃ t, commandOf n c s = .next t ∧ t.fault = some f)

/-- R153 (the spec's decision D7): a cycle of a waiting core changes nothing while no key event is captured; once
one is, it writes the key's number to the latched register, clears latch and event, and advances PC. -/
def Obligations.KeyWaitIdlesThenCompletes : Prop :=
  ∀ (s : State) (x : Nibble), s.fault = none → s.wait = some x →
    (s.keyEv = none → step s = .next s) ∧
    (∀ k, s.keyEv = some k → ∃ t, step s = .next t ∧
      (t.getV x).toNat = k.toNat ∧ KeepsRegsBut [x] s t ∧ t.wait = none ∧ t.keyEv = none ∧
      t.pc = s.nextPc ∧ KeepsAllBut [.v, .wait, .keyEv, .pc] s t)

/-- The model's reading of R22, R171 and R172 (log entry 7, DEDUCED): a raised fault is a record in a next state and
no outcome of a command is a fault or a refusal. Every command of the host, in every state, for every
CYCLES_PER_TICK, answers a next state. -/
def Obligations.EveryCommandAnswersNext : Prop :=
  ∀ (n : Nat) (c : Command) (s : State), ∃ t, commandOf n c s = .next t

/-- The model's own `withFetchWord` (log entry 5): the very next step runs exactly the placed word, and only the two
bytes at PC and what keeps a cycle from fetching are changed. -/
def Obligations.PlacedWordIsRunNext : Prop :=
  ∀ (s : State) (w : Nat) (i : Instr), decodeTableWord 16 w = some i →
    step (s.withFetchWord 16 w) = exec i (s.withFetchWord 16 w) ∧
    KeepsAllBut [.mem, .fault, .wait, .keyEv] s (s.withFetchWord 16 w) ∧
    (∀ a, maskAddr a ≠ maskAddr s.pc.toNat → maskAddr a ≠ maskAddr (s.pc.toNat + 1) →
      (s.withFetchWord 16 w).memRead a = s.memRead a)

/-- The spec's decision D1 (R14, R68): NEXT and SKIP are PC + 2 and PC + 4 reduced to 12 bits. -/
def Obligations.NextAndSkipAreTwelveBits : Prop :=
  ∀ s : State, s.nextPc.toNat = (s.pc.toNat + 2) % 4096 ∧ s.skipPc.toNat = (s.pc.toNat + 4) % 4096

/-! ## Memory -/

/-- R41: both primitives mask the address to 12 bits, and a read gives the byte last written to that address. -/
def Obligations.MemoryReadsWhatWasWritten : Prop :=
  ∀ (s : State) (a c : Nat) (b : Byte),
    s.memRead a = s.memRead (a &&& 0xFFF) ∧
    s.memWrite a b = s.memWrite (a &&& 0xFFF) b ∧
    (s.memWrite a b).memRead c = if c &&& 0xFFF = a &&& 0xFFF then b else s.memRead c

/-- The model's memory form (log entry 6): equal bytes are equal data. -/
def Obligations.CanonicalMemoriesAreEqualData : Prop :=
  ∀ m m' : Memory, Memory.wf m = true → Memory.wf m' = true →
    (∀ a, a < 4096 → Memory.read m a = Memory.read m' a) → m = m'

/-! ## Register load, arithmetic, logic, shifts, random -/

/-- R100, R101: the immediate, or the sum with it modulo 256, goes to `V[x]`, and no flag is written. -/
def Obligations.ImmediatesGoToVx : Prop :=
  ∀ (x : Nibble) (kk : Byte) (s : State),
    (∃ t, exec (.ldImm x kk) s = .next t ∧ t.getV x = kk ∧ KeepsRegsBut [x] s t ∧
      t.pc = s.nextPc ∧ KeepsAllBut [.v, .pc] s t) ∧
    (∃ t, exec (.addImm x kk) s = .next t ∧
      (t.getV x).toNat = ((s.getV x).toNat + kk.toNat) % 256 ∧ KeepsRegsBut [x] s t ∧
      t.pc = s.nextPc ∧ KeepsAllBut [.v, .pc] s t)

/-- R102 to R105: copy, OR, AND, XOR, bit by bit; no flag is written. -/
def Obligations.CopyAndLogicResults : Prop :=
  ∀ (x y : Nibble) (s : State),
    (∃ t, exec (.ldReg x y) s = .next t ∧ t.getV x = s.getV y ∧ KeepsRegsBut [x] s t ∧
      t.pc = s.nextPc ∧ KeepsAllBut [.v, .pc] s t) ∧
    (∃ t, exec (.orReg x y) s = .next t ∧
      (∀ b, (t.getV x).getLsbD b = ((s.getV x).getLsbD b || (s.getV y).getLsbD b)) ∧
      KeepsRegsBut [x] s t ∧ t.pc = s.nextPc ∧ KeepsAllBut [.v, .pc] s t) ∧
    (∃ t, exec (.andReg x y) s = .next t ∧
      (∀ b, (t.getV x).getLsbD b = ((s.getV x).getLsbD b && (s.getV y).getLsbD b)) ∧
      KeepsRegsBut [x] s t ∧ t.pc = s.nextPc ∧ KeepsAllBut [.v, .pc] s t) ∧
    (∃ t, exec (.xorReg x y) s = .next t ∧
      (∀ b, (t.getV x).getLsbD b = ((s.getV x).getLsbD b ^^ (s.getV y).getLsbD b)) ∧
      KeepsRegsBut [x] s t ∧ t.pc = s.nextPc ∧ KeepsAllBut [.v, .pc] s t)

/-- R106: the sum modulo 256 and, last, VF = carry; with `x = 15` the flag wins. -/
def Obligations.AddWritesSumThenCarry : Prop :=
  ∀ (x y : Nibble) (s : State), ∃ t, exec (.addReg x y) s = .next t ∧
    (x ≠ 15 → (t.getV x).toNat = ((s.getV x).toNat + (s.getV y).toNat) % 256) ∧
    t.getV 15 = (if (s.getV x).toNat + (s.getV y).toNat > 255 then 1 else 0) ∧
    KeepsRegsBut [x, 15] s t ∧ t.pc = s.nextPc ∧ KeepsAllBut [.v, .pc] s t

/-- R107: the difference modulo 256 and, last, VF = NOT borrow; with `x = 15` the flag wins. -/
def Obligations.SubWritesDifferenceThenNotBorrow : Prop :=
  ∀ (x y : Nibble) (s : State), ∃ t, exec (.sub x y) s = .next t ∧
    (x ≠ 15 → (t.getV x).toNat = ((s.getV x).toNat + 256 - (s.getV y).toNat) % 256) ∧
    t.getV 15 = (if (s.getV x).toNat ≥ (s.getV y).toNat then 1 else 0) ∧
    KeepsRegsBut [x, 15] s t ∧ t.pc = s.nextPc ∧ KeepsAllBut [.v, .pc] s t

/-- R109: the reverse difference modulo 256 and, last, VF = NOT borrow; with `x = 15` the flag wins. -/
def Obligations.SubnWritesReverseDifferenceThenNotBorrow : Prop :=
  ∀ (x y : Nibble) (s : State), ∃ t, exec (.subn x y) s = .next t ∧
    (x ≠ 15 → (t.getV x).toNat = ((s.getV y).toNat + 256 - (s.getV x).toNat) % 256) ∧
    t.getV 15 = (if (s.getV y).toNat ≥ (s.getV x).toNat then 1 else 0) ∧
    KeepsRegsBut [x, 15] s t ∧ t.pc = s.nextPc ∧ KeepsAllBut [.v, .pc] s t

/-- R108, R110: the shift by one of `V[x]` and, last, VF = the bit shifted out. That the operand is Vx and never Vy
is the spec's decision D15. -/
def Obligations.ShiftsActOnVxAndKeepTheLostBit : Prop :=
  ∀ (x y : Nibble) (s : State),
    (∃ t, exec (.shr x y) s = .next t ∧ (x ≠ 15 → (t.getV x).toNat = (s.getV x).toNat / 2) ∧
      (t.getV 15).toNat = (s.getV x).toNat % 2 ∧
      KeepsRegsBut [x, 15] s t ∧ t.pc = s.nextPc ∧ KeepsAllBut [.v, .pc] s t) ∧
    (∃ t, exec (.shl x y) s = .next t ∧ (x ≠ 15 → (t.getV x).toNat = (s.getV x).toNat * 2 % 256) ∧
      (t.getV 15).toNat = (s.getV x).toNat / 128 ∧
      KeepsRegsBut [x, 15] s t ∧ t.pc = s.nextPc ∧ KeepsAllBut [.v, .pc] s t)

/-- R111, R187: one byte is drawn, also when `kk = 0`, and masked. The byte is a free value: this holds for every
value of it. -/
def Obligations.RandomByteIsDrawnAndMasked : Prop :=
  ∀ (x : Nibble) (kk : Byte) (s : State), ∃ t, exec (.rnd x kk) s = .next t ∧
    t.getV x = (rngNext s.rng).1 &&& kk ∧ t.rng = (rngNext s.rng).2 ∧
    (∀ b, kk.getLsbD b = false → (t.getV x).getLsbD b = false) ∧
    KeepsRegsBut [x] s t ∧ t.pc = s.nextPc ∧ KeepsAllBut [.v, .rng, .pc] s t

/-! ## Control transfer -/

/-- R80: SYS only advances PC, whatever `nnn`. -/
def Obligations.SysOnlyAdvances : Prop :=
  ∀ (nnn : Addr) (s : State), ∃ t, exec (.sys nnn) s = .next t ∧ t.pc = s.nextPc ∧ KeepsAllBut [.pc] s t

/-- R82, R84: PC is the target, the sum reduced to 12 bits; odd targets are accepted (decision D2), the base register
is V0 (decision D15). -/
def Obligations.JumpsSetPc : Prop :=
  ∀ (nnn : Addr) (s : State),
    (∃ t, exec (.jp nnn) s = .next t ∧ t.pc.toNat = nnn.toNat ∧ KeepsAllBut [.pc] s t) ∧
    (∃ t, exec (.jpV0 nnn) s = .next t ∧ t.pc.toNat = (nnn.toNat + (s.getV 0).toNat) % 4096 ∧
      KeepsAllBut [.pc] s t)

/-- R85, R86: the skips on an immediate. -/
def Obligations.ImmediateSkips : Prop :=
  ∀ (x : Nibble) (kk : Byte) (s : State),
    (∃ t, exec (.seImm x kk) s = .next t ∧ t.pc = (if s.getV x = kk then s.skipPc else s.nextPc) ∧
      KeepsAllBut [.pc] s t) ∧
    (∃ t, exec (.sneImm x kk) s = .next t ∧ t.pc = (if s.getV x = kk then s.nextPc else s.skipPc) ∧
      KeepsAllBut [.pc] s t)

/-- R87, R88: the skips on two registers. -/
def Obligations.RegisterSkips : Prop :=
  ∀ (x y : Nibble) (s : State),
    (∃ t, exec (.seReg x y) s = .next t ∧ t.pc = (if s.getV x = s.getV y then s.skipPc else s.nextPc) ∧
      KeepsAllBut [.pc] s t) ∧
    (∃ t, exec (.sneReg x y) s = .next t ∧ t.pc = (if s.getV x = s.getV y then s.nextPc else s.skipPc) ∧
      KeepsAllBut [.pc] s t)

/-- R150, R151: the skips on the level of the key that the low four bits of `V[x]` name. -/
def Obligations.KeySkips : Prop :=
  ∀ (x : Nibble) (s : State),
    (∃ t, exec (.skp x) s = .next t ∧
      t.pc = (if s.key (BitVec.ofNat 4 ((s.getV x).toNat % 16)) then s.skipPc else s.nextPc) ∧
      KeepsAllBut [.pc] s t) ∧
    (∃ t, exec (.sknp x) s = .next t ∧
      t.pc = (if s.key (BitVec.ofNat 4 ((s.getV x).toNat % 16)) then s.nextPc else s.skipPc) ∧
      KeepsAllBut [.pc] s t)

/-- R83, below SP = 16: NEXT goes to the slot SP names, SP goes up, PC is the target. The pushed value's 12 bits are
the spec's decision D1. -/
def Obligations.CallPushesNext : Prop :=
  ∀ (nnn : Addr) (s : State), s.sp.val < 16 → ∃ t, exec (.call nnn) s = .next t ∧
    t.sp.val = s.sp.val + 1 ∧
    (∀ k : Fin 16, t.stack[k] = if k.val = s.sp.val then s.nextPc else s.stack[k]) ∧
    t.pc.toNat = nnn.toNat ∧ KeepsAllBut [.pc, .stack] s t

/-- R81, above SP = 0: SP goes down, PC is the slot it then names with no further advance (the spec's decision D3),
and the slot keeps its bits. -/
def Obligations.RetPopsIntoPc : Prop :=
  ∀ s : State, 0 < s.sp.val → ∃ t, exec .ret s = .next t ∧
    t.sp.val + 1 = s.sp.val ∧ t.stack = s.stack ∧
    (∀ k : Fin 16, k.val = t.sp.val → t.pc = s.stack[k]) ∧ KeepsAllBut [.pc, .stack] s t

/-- R173, R174: a CALL with SP = 16 and a RET with SP = 0 record their fault with PC. That PC and all other state are
left as they were is the spec's decision D8 (R171; log entry 8, DESIGN CHOICE). -/
def Obligations.StackFaultsAreRecorded : Prop :=
  ∀ (nnn : Addr) (s : State),
    (s.sp.val = 16 → exec (.call nnn) s = .next { s with fault := some ⟨.stackOverflow, s.pc⟩ }) ∧
    (s.sp.val = 0 → exec .ret s = .next { s with fault := some ⟨.stackUnderflow, s.pc⟩ })

/-- The source's law L2 (R81, R83; decisions D1, D3): `2nnn` then `00EE` gives PC the address after the CALL and
leaves SP and the live slots as they were. -/
def Obligations.CallThenRetReturns : Prop :=
  ∀ (nnn : Addr) (s : State), s.sp.val < 16 → ∃ t u, exec (.call nnn) s = .next t ∧ exec .ret t = .next u ∧
    u.pc = s.nextPc ∧ u.sp = s.sp ∧ (∀ k : Fin 16, k.val < s.sp.val → u.stack[k] = s.stack[k]) ∧
    KeepsAllBut [.pc, .stack] s u

/-! ## Index register and memory transfers -/

/-- R120, R121, R122: I from an address, from a 16-bit sum, from a glyph's number; no flag is written. -/
def Obligations.IndexRegisterResults : Prop :=
  ∀ (x : Nibble) (nnn : Addr) (s : State),
    (∃ t, exec (.ldI nnn) s = .next t ∧ t.i.toNat = nnn.toNat ∧ t.pc = s.nextPc ∧
      KeepsAllBut [.i, .pc] s t) ∧
    (∃ t, exec (.addI x) s = .next t ∧ t.i.toNat = (s.i.toNat + (s.getV x).toNat) % 65536 ∧
      t.pc = s.nextPc ∧ KeepsAllBut [.i, .pc] s t) ∧
    (∃ t, exec (.ldF x) s = .next t ∧ t.i.toNat = 0x050 + 5 * ((s.getV x).toNat % 16) ∧
      t.pc = s.nextPc ∧ KeepsAllBut [.i, .pc] s t)

/-- R123: the three decimal digits of `V[x]`, most significant first, at I, I + 1 and I + 2 masked. -/
def Obligations.BcdStoresThreeDigits : Prop :=
  ∀ (x : Nibble) (s : State), ∃ t, exec (.ldB x) s = .next t ∧
    (t.memRead (s.addrI 0)).toNat = (s.getV x).toNat / 100 ∧
    (t.memRead (s.addrI 1)).toNat = (s.getV x).toNat / 10 % 10 ∧
    (t.memRead (s.addrI 2)).toNat = (s.getV x).toNat % 10 ∧
    (∀ a, maskAddr a ≠ maskAddr (s.addrI 0) → maskAddr a ≠ maskAddr (s.addrI 1) →
      maskAddr a ≠ maskAddr (s.addrI 2) → t.memRead a = s.memRead a) ∧
    t.pc = s.nextPc ∧ KeepsAllBut [.mem, .pc] s t

/-- R124: V0 to Vx go to I up, masked; every other byte and I stay (I unchanged is the spec's decision D15). -/
def Obligations.RegistersAreStored : Prop :=
  ∀ (x : Nibble) (s : State), ∃ t, exec (.stRegs x) s = .next t ∧
    (∀ r : Nibble, r.toNat ≤ x.toNat → t.memRead (s.addrI r.toNat) = s.getV r) ∧
    (∀ a, (∀ k, k ≤ x.toNat → maskAddr a ≠ maskAddr (s.addrI k)) → t.memRead a = s.memRead a) ∧
    t.pc = s.nextPc ∧ KeepsAllBut [.mem, .pc] s t

/-- R125: V0 to Vx come from I up, masked; the registers above, memory and I stay (I unchanged is decision D15). -/
def Obligations.RegistersAreLoaded : Prop :=
  ∀ (x : Nibble) (s : State), ∃ t, exec (.ldRegs x) s = .next t ∧
    (∀ r : Nibble, t.getV r = if r.toNat ≤ x.toNat then s.memRead (s.addrI r.toNat) else s.getV r) ∧
    t.pc = s.nextPc ∧ KeepsAllBut [.v, .pc] s t

/-- The source's law L5 (R124, R125): whatever happened to the registers between them, `Fx55` then `Fx65` with the same
x, the same I and the bytes still there restores V0 to Vx. -/
def Obligations.StoreThenLoadRestores : Prop :=
  ∀ (x : Nibble) (s : State), ∃ t, exec (.stRegs x) s = .next t ∧
    ∀ u : State, u.i = s.i → (∀ a, u.memRead a = t.memRead a) →
      ∃ w, exec (.ldRegs x) u = .next w ∧ ∀ r : Nibble, r.toNat ≤ x.toNat → w.getV r = s.getV r

/-! ## Display -/

/-- R140: every cell is off, Dirty is set, VF is not written. -/
def Obligations.ClsClearsEveryCell : Prop :=
  ∀ s : State, ∃ t, exec .cls s = .next t ∧
    (∀ px py, px < 64 → py < 32 → Framebuffer.cell t.fb px py = false) ∧ t.dirty = true ∧
    t.pc = s.nextPc ∧ KeepsAllBut [.fb, .dirty, .pc] s t

/-- R141: the loops of the rasterizer equal the picture said cell by cell. Each cell is XORed with the sprite's bit on
it, the origin wrapping and the pixels clipping (conflict C2); VF is 1 exactly when a sprite bit met a lit cell,
else 0; Dirty is set. `n = 0` and `x = 15` or `y = 15` are the spec's decisions D5 and D6. -/
def Obligations.DrawXorsTheClippedSprite : Prop :=
  ∀ (x y n : Nibble) (s : State), ∃ t, exec (.drw x y n) s = .next t ∧
    (∀ px py, px < 64 → py < 32 →
      Framebuffer.cell t.fb px py = (Framebuffer.cell s.fb px py ^^ s.spriteOn x y n px py)) ∧
    ((∃ px py, px < 64 ∧ py < 32 ∧ s.spriteOn x y n px py = true ∧
      Framebuffer.cell s.fb px py = true) → t.getV 15 = 1) ∧
    ((∀ px py, px < 64 → py < 32 → s.spriteOn x y n px py = true →
      Framebuffer.cell s.fb px py = false) → t.getV 15 = 0) ∧
    t.dirty = true ∧ t.pc = s.nextPc ∧ KeepsRegsBut [15] s t ∧ KeepsAllBut [.v, .fb, .dirty, .pc] s t

/-- R142 (a), (b) (an inference of the spec from R141): drawing the same sprite at the same place twice restores the
framebuffer, and VF is then 1 exactly when some plotted 1 bit fell on an unlit cell. Needs `x` and `y` other than 15,
because the first draw writes VF. -/
def Obligations.DrawingTwiceRestores : Prop :=
  ∀ (x y n : Nibble) (s : State), x ≠ 15 → y ≠ 15 → ∃ t u,
    exec (.drw x y n) s = .next t ∧ exec (.drw x y n) t = .next u ∧ u.fb = s.fb ∧
    (u.getV 15 = 1 ↔ ∃ px py, px < 64 ∧ py < 32 ∧ s.spriteOn x y n px py = true ∧
      Framebuffer.cell s.fb px py = false)

/-! ## Timers and keypad instructions -/

/-- R154, R155, R156: DT is read and written, ST is written, and the sound output follows ST at once (R184). -/
def Obligations.TimerAccess : Prop :=
  ∀ (x : Nibble) (s : State),
    (∃ t, exec (.ldVxDt x) s = .next t ∧ t.getV x = s.dt ∧ KeepsRegsBut [x] s t ∧ t.pc = s.nextPc ∧
      KeepsAllBut [.v, .pc] s t) ∧
    (∃ t, exec (.ldDtVx x) s = .next t ∧ t.dt = s.getV x ∧ t.pc = s.nextPc ∧
      KeepsAllBut [.dt, .pc] s t) ∧
    (∃ t, exec (.ldStVx x) s = .next t ∧ t.st = s.getV x ∧
      (soundActive t = true ↔ (s.getV x).toNat > 0) ∧ t.pc = s.nextPc ∧ KeepsAllBut [.st, .pc] s t)

/-- R152: the issuing cycle of `Fx0A` sets the latch, whether or not a key is down, and changes nothing else. -/
def Obligations.KeyWaitIsIssued : Prop :=
  ∀ (x : Nibble) (s : State), ∃ t, exec (.ldVxK x) s = .next t ∧ t.wait = some x ∧ KeepsAllBut [.wait] s t

/-! ## Whole-machine rules -/

/-- R12: exactly the six flag-writing instructions write VF as a flag, always 0 or 1; any other instruction that
changes VF has 15 as its `x` field. -/
def Obligations.VfIsWrittenAsAFlagByExactlySix : Prop :=
  ∀ (i : Instr) (s : State), ∃ t, exec i s = .next t ∧
    (writesFlag i = true → t.getV 15 = 0 ∨ t.getV 15 = 1) ∧
    (writesFlag i = false → t.getV 15 ≠ s.getV 15 → xField i = some 15)

/-- Every instruction, in every state, answers a next state that differs only in the parts its rule writes (the rules'
pseudocode, R80 to R156; R13, R16 to R21: who writes I, DT, ST, Mem, FB, Key, Dirty). -/
def Obligations.EachInstructionWritesOnlyItsParts : Prop :=
  ∀ (i : Instr) (s : State), ∃ t, exec i s = .next t ∧ KeepsAllBut (writtenParts i) s t

/-- R183, R67: a STEP never changes a key, and changes a timer only by running `Fx15` or `Fx18`; so timers never count
down under STEP. -/
def Obligations.StepNeverCountsTimersDown : Prop :=
  ∀ s : State, ∃ t, step s = .next t ∧ t.keys = s.keys ∧
    (t.dt ≠ s.dt → Running s ∧ ∃ x, decodeWord s.fetchWord = .ok (.ldDtVx x) ∧ t.dt = s.getV x) ∧
    (t.st ≠ s.st → Running s ∧ ∃ x, decodeWord s.fetchWord = .ok (.ldStVx x) ∧ t.st = s.getV x)

/-- R25 (h), R17: a STEP changes a byte of memory only by running `Fx33` or `Fx55`, at an address that instruction
stores to; so the core itself never overwrites the font. -/
def Obligations.StepWritesMemoryOnlyByStores : Prop :=
  ∀ s : State, ∃ t, step s = .next t ∧ ∀ a, t.memRead a ≠ s.memRead a → Running s ∧
    ((∃ x, decodeWord s.fetchWord = .ok (.ldB x) ∧ ∃ k, k < 3 ∧ maskAddr a = maskAddr (s.addrI k)) ∨
     (∃ x, decodeWord s.fetchWord = .ok (.stRegs x) ∧
       ∃ k, k ≤ x.toNat ∧ maskAddr a = maskAddr (s.addrI k)))

/-- R111, R187, R23: every instruction but `Cxkk` neither reads nor writes the random source's state: with another
generator state it does the same and leaves that state alone. -/
def Obligations.OnlyRndTouchesTheRandomSource : Prop :=
  ∀ (i : Instr) (s : State) (g : Rng), (∀ x kk, i ≠ .rnd x kk) →
    ∃ t, exec i s = .next t ∧ exec i { s with rng := g } = .next { t with rng := g }

/-- R15 (part of decision D12): what stands in slots at or above SP is unobservable. Steps from two states that differ
only there lead to two states that differ only there. -/
def Obligations.FreeSlotsAreUnobservable : Prop :=
  ∀ s s' : State, SameButFreeSlots s s' →
    ∃ t t', step s = .next t ∧ step s' = .next t' ∧ SameButFreeSlots t t'

/-! ## Invariants -/

/-- The invariants of R25 (b), (c), (e) (the spec's inference) and the memory form (log entry 6) are kept by every
step, from every state that has them. -/
def Obligations.StepKeepsInv : Prop :=
  ∀ s t : State, Inv s → step s = .next t → Inv t

/-- The state after RESET has the invariants, whatever the seed. -/
def Obligations.ResetHasInv : Prop :=
  ∀ seed : Nat, Inv (State.resetWith seed)

/-- The same invariants are kept by every host command: any image, any key, any CYCLES_PER_TICK. -/
def Obligations.CommandsKeepInv : Prop :=
  ∀ (n : Nat) (c : Command) (s t : State), Inv s → commandOf n c s = .next t → Inv t

/-- R25 (f) (the spec's inference): while the core waits, PC addresses the `Fx0A` that set the latch; every host
command but LOAD keeps that. -/
def Obligations.WaitingPcAddressesFx0A : Prop :=
  ∀ (n : Nat) (c : Command) (s t : State), (∀ bytes, c ≠ .load bytes) →
    WaitsAtFx0A s → commandOf n c s = .next t → WaitsAtFx0A t

/-! ## Host commands -/

/-- R210, R211: RESET's answer does not depend on the state before, so nothing survives, and it has the values of
R26. The values of the stack slots (D12), KeyEv and Dirty (D11) are the spec's decisions, the form of RngState
is log entry 1; of the font only glyphs 0 and 1, which the source gives, have their values stated (those of the
others are log entry 4). -/
def Obligations.ResetIsAFreshConstruction : Prop :=
  ∀ (n seed : Nat) (s : State), (∀ s', commandOf n (.reset seed) s' = commandOf n (.reset seed) s) ∧
    ∃ t, commandOf n (.reset seed) s = .next t ∧
    (∀ r : Nibble, t.getV r = 0) ∧ t.i = 0 ∧ t.pc = 0x200 ∧ t.sp.val = 0 ∧
    (∀ k : Fin 16, t.stack[k] = 0) ∧ t.dt = 0 ∧ t.st = 0 ∧
    (∀ a, maskAddr a < 0x050 ∨ 0x0A0 ≤ maskAddr a → t.memRead a = 0) ∧
    (List.range 10).map (fun k => t.memRead (0x050 + k)) =
      [0xF0, 0x90, 0x90, 0x90, 0xF0, 0x20, 0x60, 0x20, 0x20, 0x70] ∧
    (∀ px py, px < 64 → py < 32 → Framebuffer.cell t.fb px py = false) ∧
    (∀ k : Nibble, t.key k = false) ∧ t.wait = none ∧ t.keyEv = none ∧ t.dirty = false ∧
    t.fault = none ∧ t.rng = rngSeed seed ∧ soundActive t = false

/-- R188, R176 (decision D9): an image over 3584 bytes is not copied, not even partly; LoadTooLarge is recorded with
the current PC and reported. -/
def Obligations.LoadRejectsLargeImages : Prop :=
  ∀ (n : Nat) (bytes : List Byte) (s : State), s.fault = none → bytes.length > 3584 →
    commandOf n (.load bytes) s = .next { s with fault := some ⟨.loadTooLarge, s.pc⟩ } ∧
    reply (.load bytes) s = .loaded .tooLarge

/-- R188, R48 (at any command boundary: decision D10): an image of at most 3584 bytes, the empty one too, goes to 0x200
and up; no other byte and no other part changes. -/
def Obligations.LoadCopiesTheImage : Prop :=
  ∀ (n : Nat) (bytes : List Byte) (s : State), s.fault = none → bytes.length ≤ 3584 →
    ∃ t, commandOf n (.load bytes) s = .next t ∧ reply (.load bytes) s = .loaded .ok ∧
      (∀ (j : Nat) (h : j < bytes.length), t.memRead (0x200 + j) = bytes[j]) ∧
      (∀ a, maskAddr a < 0x200 ∨ 0x200 + bytes.length ≤ maskAddr a → t.memRead a = s.memRead a) ∧
      KeepsAllBut [.mem] s t

/-- R182 (the count is the open parameter of D13): TICK is that many cycles, then each timer goes down by one unless
it is 0, unless the machine is or becomes halted, and then neither does. The early end of a faulted tick cannot be
told from running its remaining cycles. -/
def Obligations.TickIsCyclesThenCountdown : Prop :=
  ∀ (n : Nat) (s : State), ∃ t : State, Host.Core.run Sys2Proof.core n s = .next t ∧
    tickOf n s = .next (if t.fault = none then
      { t with dt := BitVec.ofNat 8 (t.dt.toNat - 1), st := BitVec.ofNat 8 (t.st.toNat - 1) } else t)

/-- R153, R182 (decision D7 (f)): "timers continue to tick during the wait". A TICK of an idling core counts both
timers down and changes nothing else, whatever CYCLES_PER_TICK. -/
def Obligations.TimersTickDuringTheWait : Prop :=
  ∀ (n : Nat) (s : State), IdleOnKey s → ∃ t, tickOf n s = .next t ∧
    t.dt.toNat = s.dt.toNat - 1 ∧ t.st.toNat = s.st.toNat - 1 ∧ KeepsAllBut [.dt, .st] s t

/-- R185 (the capture conditions are decision D7), R186 (decision D11): PRESS sets the key's level and captures a
released-to-pressed transition if the core waits and has captured none; RELEASE clears the level and nothing else;
CONSUME_DIRTY reports Dirty and clears it. -/
def Obligations.KeypadAndDirtyCommands : Prop :=
  ∀ (n : Nat) (k : Nibble) (s : State),
    (∃ t, commandOf n (.press k) s = .next t ∧ (∀ j, t.key j = if j = k then true else s.key j) ∧
      t.keyEv = (if s.key k = false ∧ s.wait ≠ none ∧ s.keyEv = none then some k else s.keyEv) ∧
      KeepsAllBut [.keys, .keyEv] s t) ∧
    (∃ t, commandOf n (.release k) s = .next t ∧ (∀ j, t.key j = if j = k then false else s.key j) ∧
      KeepsAllBut [.keys] s t) ∧
    (∃ t, commandOf n .consumeDirty s = .next t ∧ reply .consumeDirty s = .dirty s.dirty ∧
      t.dirty = false ∧ KeepsAllBut [.dirty] s t)

/-- R152, R153, R185 (decision D7; the source's scenario 8): STEP issues the wait, STEP idles, PRESS of a released key
is captured, STEP writes the key and advances; a key already held does not end the wait. -/
def Obligations.KeyWaitEndsByATransition : Prop :=
  ∀ (n : Nat) (x k : Nibble) (s : State), Running s → s.keyEv = none →
    decodeWord s.fetchWord = .ok (.ldVxK x) →
    (s.key k = false → ∃ t, runCommandsOf n [.step, .step, .press k, .step] s = .next t ∧
      (t.getV x).toNat = k.toNat ∧ t.pc = s.nextPc ∧ t.wait = none ∧ t.keyEv = none ∧
      KeepsRegsBut [x] s t ∧ (∀ j, t.key j = if j = k then true else s.key j) ∧
      KeepsAllBut [.v, .pc, .keys] s t) ∧
    (s.key k = true → runCommandsOf n [.step, .press k, .step] s = .next { s with wait := some x })

/-- R192, R153 (decision D7): an idling key wait is left by nothing but RESET and a PRESS followed by a cycle. Every
other command keeps the latch, and the one command that captures an event is the PRESS of a released key. -/
def Obligations.OnlyAPressLeadsOutOfTheWait : Prop :=
  ∀ (n : Nat) (c : Command) (x : Nibble) (s t : State), (∀ seed, c ≠ .reset seed) →
    s.wait = some x → s.keyEv = none → commandOf n c s = .next t →
    t.wait = some x ∧ (t.keyEv ≠ none → ∃ k, c = .press k ∧ s.key k = false ∧ t.keyEv = some k)

/-- R212 (an inference of the spec), one run from one state: with no image loaded, 1832 steps run zero words from 0x200 round to the font at
0x050, and the next step records UnknownOpcode there, nothing else having changed. -/
def Obligations.BootWithoutImageReachesTheFont : Prop :=
  Host.Core.run Sys2Proof.core 1832 State.reset = .next { State.reset with pc := 0x050 } ∧
  Host.Core.run Sys2Proof.core 1833 State.reset =
    .next { State.reset with pc := 0x050, fault := some ⟨.unknownOpcode, 0x050⟩ }

/-- R220 (decision D21): once PC addresses a jump to itself, with no wait and no fault, every further cycle leaves the
whole state unchanged. -/
def Obligations.FinishedProgramsStayPut : Prop :=
  ∀ s : State, Finished s → step s = .next s

/-- R66, R80 (and what R212 says of zero bytes): with no fault and no wait, wherever the two bytes at PC and PC + 1
are zero, a step moves PC to NEXT and leaves the whole rest of the state as it was. -/
def Obligations.ZeroWordOnlyAdvances : Prop :=
  ∀ s : State, Running s → s.memRead s.pc.toNat = 0 → s.memRead (s.pc.toNat + 1) = 0 →
    step s = .next { s with pc := s.nextPc }
end

