-- ==== Sys2Proof/Laws/Decode.lean ====
section
/-! SUPPORT. The decoder read nibble by nibble: what a mask and a match of the opcode map (spec/30_encoding.md R64)
say of the four nibbles of a word, and what the decoder answers for each top nibble. -/

namespace Sys2Proof

/-! ## A word is its four nibbles -/

/-- The top nibble of a word, field `t` of R61. -/
def fieldT (op : Word) : Nibble := op.extractLsb' 12 4

@[simp] theorem fieldT_wordOfNibbles (t a b c : Nibble) : fieldT (wordOfNibbles t a b c) = t := by
  apply BitVec.eq_of_getLsbD_eq
  intro i hi
  simp only [fieldT, wordOfNibbles, BitVec.getLsbD_extractLsb', BitVec.getLsbD_append]
  interval_cases i <;> simp

@[simp] theorem fieldX_wordOfNibbles (t a b c : Nibble) : fieldX (wordOfNibbles t a b c) = a := by
  apply BitVec.eq_of_getLsbD_eq
  intro i hi
  simp only [fieldX, wordOfNibbles, BitVec.getLsbD_extractLsb', BitVec.getLsbD_append]
  interval_cases i <;> simp

@[simp] theorem fieldY_wordOfNibbles (t a b c : Nibble) : fieldY (wordOfNibbles t a b c) = b := by
  apply BitVec.eq_of_getLsbD_eq
  intro i hi
  simp only [fieldY, wordOfNibbles, BitVec.getLsbD_extractLsb', BitVec.getLsbD_append]
  interval_cases i <;> simp

@[simp] theorem fieldN_wordOfNibbles (t a b c : Nibble) : fieldN (wordOfNibbles t a b c) = c := by
  apply BitVec.eq_of_getLsbD_eq
  intro i hi
  simp only [fieldN, wordOfNibbles, BitVec.getLsbD_extractLsb', BitVec.getLsbD_append]
  interval_cases i <;> simp

@[simp] theorem fieldKK_wordOfNibbles (t a b c : Nibble) : fieldKK (wordOfNibbles t a b c) = b ++ c := by
  apply BitVec.eq_of_getLsbD_eq
  intro i hi
  simp only [fieldKK, wordOfNibbles, BitVec.getLsbD_extractLsb', BitVec.getLsbD_append]
  interval_cases i <;> simp

@[simp] theorem fieldNNN_wordOfNibbles (t a b c : Nibble) : fieldNNN (wordOfNibbles t a b c) = a ++ b ++ c := by
  apply BitVec.eq_of_getLsbD_eq
  intro i hi
  simp only [fieldNNN, wordOfNibbles, BitVec.getLsbD_extractLsb', BitVec.getLsbD_append]
  interval_cases i <;> simp

/-- Every word is the word of its nibbles. -/
theorem wordOfNibbles_fields (op : Word) :
    wordOfNibbles (fieldT op) (fieldX op) (fieldY op) (fieldN op) = op := by
  apply BitVec.eq_of_getLsbD_eq
  intro i hi
  simp only [fieldT, fieldX, fieldY, fieldN, wordOfNibbles, BitVec.getLsbD_extractLsb', BitVec.getLsbD_append]
  interval_cases i <;> simp

/-- `{kk[7:4], kk[3:0]}` is `kk`. -/
theorem byte_nibbles (kk : Byte) :
    (kk.extractLsb' 4 4 : Nibble) ++ (kk.extractLsb' 0 4 : Nibble) = (kk : BitVec (4 + 4)) := by
  apply BitVec.eq_of_getLsbD_eq
  intro i hi
  simp only [BitVec.getLsbD_extractLsb', BitVec.getLsbD_append]
  interval_cases i <;> simp

/-- `{nnn[11:8], nnn[7:4], nnn[3:0]}` is `nnn`. -/
theorem addr_nibbles (nnn : Addr) :
    (nnn.extractLsb' 8 4 : Nibble) ++ (nnn.extractLsb' 4 4 : Nibble) ++ (nnn.extractLsb' 0 4 : Nibble) =
      (nnn : BitVec (4 + 4 + 4)) := by
  apply BitVec.eq_of_getLsbD_eq
  intro i hi
  simp only [BitVec.getLsbD_extractLsb', BitVec.getLsbD_append]
  interval_cases i <;> simp

theorem wordXKK_eq (t x : Nibble) (kk : Byte) :
    wordXKK t x kk = wordOfNibbles t x (kk.extractLsb' 4 4) (kk.extractLsb' 0 4) := by
  apply BitVec.eq_of_getLsbD_eq
  intro i hi
  simp only [wordXKK, wordOfNibbles, BitVec.getLsbD_extractLsb', BitVec.getLsbD_append]
  interval_cases i <;> simp

theorem wordNNN_eq (t : Nibble) (nnn : Addr) :
    wordNNN t nnn =
      wordOfNibbles t (nnn.extractLsb' 8 4) (nnn.extractLsb' 4 4) (nnn.extractLsb' 0 4) := by
  apply BitVec.eq_of_getLsbD_eq
  intro i hi
  simp only [wordNNN, wordOfNibbles, BitVec.getLsbD_extractLsb', BitVec.getLsbD_append]
  interval_cases i <;> simp

@[simp] theorem fieldX_wordXKK (t x : Nibble) (kk : Byte) : fieldX (wordXKK t x kk) = x := by
  rw [wordXKK_eq, fieldX_wordOfNibbles]

@[simp] theorem fieldKK_wordXKK (t x : Nibble) (kk : Byte) : fieldKK (wordXKK t x kk) = kk := by
  rw [wordXKK_eq, fieldKK_wordOfNibbles, byte_nibbles]

@[simp] theorem fieldNNN_wordNNN (t : Nibble) (nnn : Addr) : fieldNNN (wordNNN t nnn) = nnn := by
  rw [wordNNN_eq, fieldNNN_wordOfNibbles, addr_nibbles]

/-- A nibble has sixteen values. -/
theorem nibble_cases (t : Nibble) :
    t = 0x0 ∨ t = 0x1 ∨ t = 0x2 ∨ t = 0x3 ∨ t = 0x4 ∨ t = 0x5 ∨ t = 0x6 ∨ t = 0x7 ∨
      t = 0x8 ∨ t = 0x9 ∨ t = 0xA ∨ t = 0xB ∨ t = 0xC ∨ t = 0xD ∨ t = 0xE ∨ t = 0xF := by
  revert t
  decide

theorem wordNNN_nibbles (t a b c : Nibble) : wordNNN t (a ++ b ++ c) = wordOfNibbles t a b c := by
  apply BitVec.eq_of_getLsbD_eq
  intro i hi
  simp only [wordNNN, wordOfNibbles, BitVec.getLsbD_append]
  interval_cases i <;> simp

theorem wordXKK_nibbles (t a b c : Nibble) : wordXKK t a (b ++ c) = wordOfNibbles t a b c := by
  apply BitVec.eq_of_getLsbD_eq
  intro i hi
  simp only [wordXKK, wordOfNibbles, BitVec.getLsbD_append]
  interval_cases i <;> simp

/-! ## A row's mask and match, nibble by nibble -/

theorem wordOfNibbles_inj (t a b c t' a' b' c' : Nibble) :
    wordOfNibbles t a b c = wordOfNibbles t' a' b' c' ↔ t = t' ∧ a = a' ∧ b = b' ∧ c = c' := by
  constructor
  · intro h
    refine ⟨?_, ?_, ?_, ?_⟩
    · simpa using congrArg fieldT h
    · simpa using congrArg fieldX h
    · simpa using congrArg fieldY h
    · simpa using congrArg fieldN h
  · rintro ⟨rfl, rfl, rfl, rfl⟩
    rfl

theorem wordOfNibbles_and (t a b c t' a' b' c' : Nibble) :
    wordOfNibbles t a b c &&& wordOfNibbles t' a' b' c' =
      wordOfNibbles (t &&& t') (a &&& a') (b &&& b') (c &&& c') := by
  apply BitVec.eq_of_getLsbD_eq
  intro i hi
  simp only [wordOfNibbles, BitVec.getLsbD_and, BitVec.getLsbD_append]
  interval_cases i <;> simp

/-- A word selects a row when each of its nibbles does. -/
theorem OpcodeRow.selects_iff (row : OpcodeRow) (t a b c : Nibble) :
    row.selects (wordOfNibbles t a b c) = true ↔
      t &&& fieldT row.mask = fieldT row.value ∧ a &&& fieldX row.mask = fieldX row.value ∧
        b &&& fieldY row.mask = fieldY row.value ∧ c &&& fieldN row.mask = fieldN row.value := by
  unfold OpcodeRow.selects
  rw [beq_iff_eq, ← wordOfNibbles_inj, wordOfNibbles_fields, ← wordOfNibbles_and, wordOfNibbles_fields]

theorem nibble_and_ones (a : Nibble) : a &&& 15#4 = a := BitVec.and_allOnes

/-- The same as one Bool, the nibbles of mask and match spelled so that they evaluate on literals. -/
theorem OpcodeRow.selects_mk (mask value : Word) (build : Word → Instr) (t a b c : Nibble) :
    OpcodeRow.selects ⟨mask, value, build⟩ (wordOfNibbles t a b c) =
      decide (t &&& mask.extractLsb' 12 4 = value.extractLsb' 12 4 ∧
        a &&& mask.extractLsb' 8 4 = value.extractLsb' 8 4 ∧
        b &&& mask.extractLsb' 4 4 = value.extractLsb' 4 4 ∧
        c &&& mask.extractLsb' 0 4 = value.extractLsb' 0 4) := by
  rw [Bool.eq_iff_iff, OpcodeRow.selects_iff, decide_eq_true_eq]
  rfl

/-- A row that fixes the top nibble only. -/
theorem OpcodeRow.selects_top {row : OpcodeRow} (t a b c : Nibble) (hm : row.mask = 0xF000)
    (hv : row.value = wordOfNibbles t 0 0 0) : row.selects (wordOfNibbles t a b c) = true := by
  rw [OpcodeRow.selects_iff, hm, hv]
  simp [show fieldT 0xF000#16 = 15#4 from rfl, show fieldX 0xF000#16 = 0#4 from rfl,
    show fieldY 0xF000#16 = 0#4 from rfl, show fieldN 0xF000#16 = 0#4 from rfl, nibble_and_ones]

/-- A row that fixes the top and the low nibble. -/
theorem OpcodeRow.selects_top_low {row : OpcodeRow} (t a b c : Nibble) (hm : row.mask = 0xF00F)
    (hv : row.value = wordOfNibbles t 0 0 c) : row.selects (wordOfNibbles t a b c) = true := by
  rw [OpcodeRow.selects_iff, hm, hv]
  simp [show fieldT 0xF00F#16 = 15#4 from rfl, show fieldX 0xF00F#16 = 0#4 from rfl,
    show fieldY 0xF00F#16 = 0#4 from rfl, show fieldN 0xF00F#16 = 15#4 from rfl, nibble_and_ones]

/-- A row that fixes the top nibble and the low byte. -/
theorem OpcodeRow.selects_top_byte {row : OpcodeRow} (t a b c : Nibble) (hm : row.mask = 0xF0FF)
    (hv : row.value = wordOfNibbles t 0 b c) : row.selects (wordOfNibbles t a b c) = true := by
  rw [OpcodeRow.selects_iff, hm, hv]
  simp [show fieldT 0xF0FF#16 = 15#4 from rfl, show fieldX 0xF0FF#16 = 0#4 from rfl,
    show fieldY 0xF0FF#16 = 15#4 from rfl, show fieldN 0xF0FF#16 = 15#4 from rfl, nibble_and_ones]

/-! ## The decoder for each top nibble -/

theorem decodeWord_top0 (a b c : Nibble) :
    decodeWord (wordOfNibbles 0x0 a b c) =
      if a = 0x0#4 ∧ b = 0xE#4 ∧ c = 0x0#4 then .ok .cls
      else if a = 0x0#4 ∧ b = 0xE#4 ∧ c = 0xE#4 then .ok .ret
      else .ok (.sys (a ++ b ++ c)) := by
  split_ifs with h1 h2 <;>
    simp [-Bool.decide_and, decodeWord, opcodeTable, opcodeRowsLow, opcodeRowsAlu, opcodeRowsHigh,
    opcodeRowsF, OpcodeRow.selects_mk, nibble_and_ones, *]

theorem decodeWord_top1 (a b c : Nibble) : decodeWord (wordOfNibbles 0x1 a b c) = .ok (.jp (a ++ b ++ c)) := by
  simp [-Bool.decide_and, decodeWord, opcodeTable, opcodeRowsLow, opcodeRowsAlu, opcodeRowsHigh,
    opcodeRowsF, OpcodeRow.selects_mk, nibble_and_ones]

theorem decodeWord_top2 (a b c : Nibble) : decodeWord (wordOfNibbles 0x2 a b c) = .ok (.call (a ++ b ++ c)) := by
  simp [-Bool.decide_and, decodeWord, opcodeTable, opcodeRowsLow, opcodeRowsAlu, opcodeRowsHigh,
    opcodeRowsF, OpcodeRow.selects_mk, nibble_and_ones]

theorem decodeWord_top3 (a b c : Nibble) : decodeWord (wordOfNibbles 0x3 a b c) = .ok (.seImm a (b ++ c)) := by
  simp [-Bool.decide_and, decodeWord, opcodeTable, opcodeRowsLow, opcodeRowsAlu, opcodeRowsHigh,
    opcodeRowsF, OpcodeRow.selects_mk, nibble_and_ones]

theorem decodeWord_top4 (a b c : Nibble) : decodeWord (wordOfNibbles 0x4 a b c) = .ok (.sneImm a (b ++ c)) := by
  simp [-Bool.decide_and, decodeWord, opcodeTable, opcodeRowsLow, opcodeRowsAlu, opcodeRowsHigh,
    opcodeRowsF, OpcodeRow.selects_mk, nibble_and_ones]

theorem decodeWord_top6 (a b c : Nibble) : decodeWord (wordOfNibbles 0x6 a b c) = .ok (.ldImm a (b ++ c)) := by
  simp [-Bool.decide_and, decodeWord, opcodeTable, opcodeRowsLow, opcodeRowsAlu, opcodeRowsHigh,
    opcodeRowsF, OpcodeRow.selects_mk, nibble_and_ones]

theorem decodeWord_top7 (a b c : Nibble) : decodeWord (wordOfNibbles 0x7 a b c) = .ok (.addImm a (b ++ c)) := by
  simp [-Bool.decide_and, decodeWord, opcodeTable, opcodeRowsLow, opcodeRowsAlu, opcodeRowsHigh,
    opcodeRowsF, OpcodeRow.selects_mk, nibble_and_ones]

theorem decodeWord_topA (a b c : Nibble) : decodeWord (wordOfNibbles 0xA a b c) = .ok (.ldI (a ++ b ++ c)) := by
  simp [-Bool.decide_and, decodeWord, opcodeTable, opcodeRowsLow, opcodeRowsAlu, opcodeRowsHigh,
    opcodeRowsF, OpcodeRow.selects_mk, nibble_and_ones]

theorem decodeWord_topB (a b c : Nibble) : decodeWord (wordOfNibbles 0xB a b c) = .ok (.jpV0 (a ++ b ++ c)) := by
  simp [-Bool.decide_and, decodeWord, opcodeTable, opcodeRowsLow, opcodeRowsAlu, opcodeRowsHigh,
    opcodeRowsF, OpcodeRow.selects_mk, nibble_and_ones]

theorem decodeWord_topC (a b c : Nibble) : decodeWord (wordOfNibbles 0xC a b c) = .ok (.rnd a (b ++ c)) := by
  simp [-Bool.decide_and, decodeWord, opcodeTable, opcodeRowsLow, opcodeRowsAlu, opcodeRowsHigh,
    opcodeRowsF, OpcodeRow.selects_mk, nibble_and_ones]

theorem decodeWord_topD (a b c : Nibble) : decodeWord (wordOfNibbles 0xD a b c) = .ok (.drw a b c) := by
  simp [-Bool.decide_and, decodeWord, opcodeTable, opcodeRowsLow, opcodeRowsAlu, opcodeRowsHigh,
    opcodeRowsF, OpcodeRow.selects_mk, nibble_and_ones]

theorem decodeWord_top5 (a b c : Nibble) :
    decodeWord (wordOfNibbles 0x5 a b c) =
      if c = 0x0#4 then .ok (.seReg a b)
      else .error (.unknownOpcode (wordOfNibbles 0x5 a b c)) := by
  split_ifs with h1 <;>
    simp [-Bool.decide_and, decodeWord, opcodeTable, opcodeRowsLow, opcodeRowsAlu, opcodeRowsHigh,
    opcodeRowsF, OpcodeRow.selects_mk, nibble_and_ones, *]

theorem decodeWord_top8 (a b c : Nibble) :
    decodeWord (wordOfNibbles 0x8 a b c) =
      if c = 0x0#4 then .ok (.ldReg a b)
      else if c = 0x1#4 then .ok (.orReg a b)
      else if c = 0x2#4 then .ok (.andReg a b)
      else if c = 0x3#4 then .ok (.xorReg a b)
      else if c = 0x4#4 then .ok (.addReg a b)
      else if c = 0x5#4 then .ok (.sub a b)
      else if c = 0x6#4 then .ok (.shr a b)
      else if c = 0x7#4 then .ok (.subn a b)
      else if c = 0xE#4 then .ok (.shl a b)
      else .error (.unknownOpcode (wordOfNibbles 0x8 a b c)) := by
  split_ifs with h1 h2 h3 h4 h5 h6 h7 h8 h9 <;>
    simp [-Bool.decide_and, decodeWord, opcodeTable, opcodeRowsLow, opcodeRowsAlu, opcodeRowsHigh,
    opcodeRowsF, OpcodeRow.selects_mk, nibble_and_ones, *]

theorem decodeWord_top9 (a b c : Nibble) :
    decodeWord (wordOfNibbles 0x9 a b c) =
      if c = 0x0#4 then .ok (.sneReg a b)
      else .error (.unknownOpcode (wordOfNibbles 0x9 a b c)) := by
  split_ifs with h1 <;>
    simp [-Bool.decide_and, decodeWord, opcodeTable, opcodeRowsLow, opcodeRowsAlu, opcodeRowsHigh,
    opcodeRowsF, OpcodeRow.selects_mk, nibble_and_ones, *]

theorem decodeWord_topE (a b c : Nibble) :
    decodeWord (wordOfNibbles 0xE a b c) =
      if b = 0x9#4 ∧ c = 0xE#4 then .ok (.skp a)
      else if b = 0xA#4 ∧ c = 0x1#4 then .ok (.sknp a)
      else .error (.unknownOpcode (wordOfNibbles 0xE a b c)) := by
  split_ifs with h1 h2 <;>
    simp [-Bool.decide_and, decodeWord, opcodeTable, opcodeRowsLow, opcodeRowsAlu, opcodeRowsHigh,
    opcodeRowsF, OpcodeRow.selects_mk, nibble_and_ones, *]

theorem decodeWord_topF (a b c : Nibble) :
    decodeWord (wordOfNibbles 0xF a b c) =
      if b = 0x0#4 ∧ c = 0x7#4 then .ok (.ldVxDt a)
      else if b = 0x0#4 ∧ c = 0xA#4 then .ok (.ldVxK a)
      else if b = 0x1#4 ∧ c = 0x5#4 then .ok (.ldDtVx a)
      else if b = 0x1#4 ∧ c = 0x8#4 then .ok (.ldStVx a)
      else if b = 0x1#4 ∧ c = 0xE#4 then .ok (.addI a)
      else if b = 0x2#4 ∧ c = 0x9#4 then .ok (.ldF a)
      else if b = 0x3#4 ∧ c = 0x3#4 then .ok (.ldB a)
      else if b = 0x5#4 ∧ c = 0x5#4 then .ok (.stRegs a)
      else if b = 0x6#4 ∧ c = 0x5#4 then .ok (.ldRegs a)
      else .error (.unknownOpcode (wordOfNibbles 0xF a b c)) := by
  split_ifs with h1 h2 h3 h4 h5 h6 h7 h8 h9 <;>
    simp [-Bool.decide_and, decodeWord, opcodeTable, opcodeRowsLow, opcodeRowsAlu, opcodeRowsHigh,
    opcodeRowsF, OpcodeRow.selects_mk, nibble_and_ones, *]

/-! ## A word and its two bytes (R45, R60) -/

@[simp] theorem highByte_wordOfBytes (hi lo : Byte) : highByte (wordOfBytes hi lo) = hi := by
  unfold highByte wordOfBytes
  ext i h
  simp only [BitVec.getElem_extractLsb', BitVec.getLsbD_append]
  simp [h]

@[simp] theorem lowByte_wordOfBytes (hi lo : Byte) : lowByte (wordOfBytes hi lo) = lo := by
  unfold lowByte wordOfBytes
  ext i h
  simp only [BitVec.getElem_extractLsb', BitVec.getLsbD_append]
  simp [h]

/-- The first byte of a word of format XKK or X. -/
theorem highByte_wordXKK (t x : Nibble) (kk : Byte) : highByte (wordXKK t x kk) = t ++ x :=
  highByte_wordOfBytes _ _

/-- The second byte of a word of format XKK or X. -/
theorem lowByte_wordXKK (t x : Nibble) (kk : Byte) : lowByte (wordXKK t x kk) = kk :=
  lowByte_wordOfBytes _ _

end Sys2Proof
end

