-- ==== Sys2Proof/Laws/State.lean ====
section
/-! SUPPORT. What each named update of the state does to each field: true by rfl, so that no later proof unfolds a
record update. -/

namespace Sys2Proof.Machine

variable (s : State)

/-! ## setV -/

@[simp] theorem State.setV_i (x : Nibble) (b : Byte) : (s.setV x b).i = s.i := rfl
@[simp] theorem State.setV_pc (x : Nibble) (b : Byte) : (s.setV x b).pc = s.pc := rfl
@[simp] theorem State.setV_sp (x : Nibble) (b : Byte) : (s.setV x b).sp = s.sp := rfl
@[simp] theorem State.setV_stack (x : Nibble) (b : Byte) : (s.setV x b).stack = s.stack := rfl
@[simp] theorem State.setV_dt (x : Nibble) (b : Byte) : (s.setV x b).dt = s.dt := rfl
@[simp] theorem State.setV_st (x : Nibble) (b : Byte) : (s.setV x b).st = s.st := rfl
@[simp] theorem State.setV_mem (x : Nibble) (b : Byte) : (s.setV x b).mem = s.mem := rfl
@[simp] theorem State.setV_fb (x : Nibble) (b : Byte) : (s.setV x b).fb = s.fb := rfl
@[simp] theorem State.setV_keys (x : Nibble) (b : Byte) : (s.setV x b).keys = s.keys := rfl
@[simp] theorem State.setV_wait (x : Nibble) (b : Byte) : (s.setV x b).wait = s.wait := rfl
@[simp] theorem State.setV_keyEv (x : Nibble) (b : Byte) : (s.setV x b).keyEv = s.keyEv := rfl
@[simp] theorem State.setV_dirty (x : Nibble) (b : Byte) : (s.setV x b).dirty = s.dirty := rfl
@[simp] theorem State.setV_fault (x : Nibble) (b : Byte) : (s.setV x b).fault = s.fault := rfl
@[simp] theorem State.setV_rng (x : Nibble) (b : Byte) : (s.setV x b).rng = s.rng := rfl
@[simp] theorem State.setV_memRead (x : Nibble) (b : Byte) (c : Nat) : (s.setV x b).memRead c = s.memRead c := rfl
@[simp] theorem State.setV_key (x : Nibble) (b : Byte) (j : Nibble) : (s.setV x b).key j = s.key j := rfl
@[simp] theorem State.setV_nextPc (x : Nibble) (b : Byte) : (s.setV x b).nextPc = s.nextPc := rfl
@[simp] theorem State.setV_addrI (x : Nibble) (b : Byte) (o : Nat) : (s.setV x b).addrI o = s.addrI o := rfl

/-! ## memWrite -/

@[simp] theorem State.memWrite_v (a : Nat) (b : Byte) : (s.memWrite a b).v = s.v := rfl
@[simp] theorem State.memWrite_i (a : Nat) (b : Byte) : (s.memWrite a b).i = s.i := rfl
@[simp] theorem State.memWrite_pc (a : Nat) (b : Byte) : (s.memWrite a b).pc = s.pc := rfl
@[simp] theorem State.memWrite_sp (a : Nat) (b : Byte) : (s.memWrite a b).sp = s.sp := rfl
@[simp] theorem State.memWrite_stack (a : Nat) (b : Byte) : (s.memWrite a b).stack = s.stack := rfl
@[simp] theorem State.memWrite_dt (a : Nat) (b : Byte) : (s.memWrite a b).dt = s.dt := rfl
@[simp] theorem State.memWrite_st (a : Nat) (b : Byte) : (s.memWrite a b).st = s.st := rfl
@[simp] theorem State.memWrite_mem (a : Nat) (b : Byte) : (s.memWrite a b).mem = Memory.write s.mem (maskAddr a) b := rfl
@[simp] theorem State.memWrite_fb (a : Nat) (b : Byte) : (s.memWrite a b).fb = s.fb := rfl
@[simp] theorem State.memWrite_keys (a : Nat) (b : Byte) : (s.memWrite a b).keys = s.keys := rfl
@[simp] theorem State.memWrite_wait (a : Nat) (b : Byte) : (s.memWrite a b).wait = s.wait := rfl
@[simp] theorem State.memWrite_keyEv (a : Nat) (b : Byte) : (s.memWrite a b).keyEv = s.keyEv := rfl
@[simp] theorem State.memWrite_dirty (a : Nat) (b : Byte) : (s.memWrite a b).dirty = s.dirty := rfl
@[simp] theorem State.memWrite_fault (a : Nat) (b : Byte) : (s.memWrite a b).fault = s.fault := rfl
@[simp] theorem State.memWrite_rng (a : Nat) (b : Byte) : (s.memWrite a b).rng = s.rng := rfl
@[simp] theorem State.memWrite_getV (a : Nat) (b : Byte) (r : Nibble) : (s.memWrite a b).getV r = s.getV r := rfl
@[simp] theorem State.memWrite_key (a : Nat) (b : Byte) (j : Nibble) : (s.memWrite a b).key j = s.key j := rfl
@[simp] theorem State.memWrite_nextPc (a : Nat) (b : Byte) : (s.memWrite a b).nextPc = s.nextPc := rfl
@[simp] theorem State.memWrite_addrI (a : Nat) (b : Byte) (o : Nat) : (s.memWrite a b).addrI o = s.addrI o := rfl

/-! ## setResultThenFlag -/

@[simp] theorem State.setResultThenFlag_i (x : Nibble) (b f : Byte) : (s.setResultThenFlag x b f).i = s.i := rfl
@[simp] theorem State.setResultThenFlag_pc (x : Nibble) (b f : Byte) : (s.setResultThenFlag x b f).pc = s.pc := rfl
@[simp] theorem State.setResultThenFlag_sp (x : Nibble) (b f : Byte) : (s.setResultThenFlag x b f).sp = s.sp := rfl
@[simp] theorem State.setResultThenFlag_stack (x : Nibble) (b f : Byte) : (s.setResultThenFlag x b f).stack = s.stack := rfl
@[simp] theorem State.setResultThenFlag_dt (x : Nibble) (b f : Byte) : (s.setResultThenFlag x b f).dt = s.dt := rfl
@[simp] theorem State.setResultThenFlag_st (x : Nibble) (b f : Byte) : (s.setResultThenFlag x b f).st = s.st := rfl
@[simp] theorem State.setResultThenFlag_mem (x : Nibble) (b f : Byte) : (s.setResultThenFlag x b f).mem = s.mem := rfl
@[simp] theorem State.setResultThenFlag_fb (x : Nibble) (b f : Byte) : (s.setResultThenFlag x b f).fb = s.fb := rfl
@[simp] theorem State.setResultThenFlag_keys (x : Nibble) (b f : Byte) : (s.setResultThenFlag x b f).keys = s.keys := rfl
@[simp] theorem State.setResultThenFlag_wait (x : Nibble) (b f : Byte) : (s.setResultThenFlag x b f).wait = s.wait := rfl
@[simp] theorem State.setResultThenFlag_keyEv (x : Nibble) (b f : Byte) : (s.setResultThenFlag x b f).keyEv = s.keyEv := rfl
@[simp] theorem State.setResultThenFlag_dirty (x : Nibble) (b f : Byte) : (s.setResultThenFlag x b f).dirty = s.dirty := rfl
@[simp] theorem State.setResultThenFlag_fault (x : Nibble) (b f : Byte) : (s.setResultThenFlag x b f).fault = s.fault := rfl
@[simp] theorem State.setResultThenFlag_rng (x : Nibble) (b f : Byte) : (s.setResultThenFlag x b f).rng = s.rng := rfl
@[simp] theorem State.setResultThenFlag_memRead (x : Nibble) (b f : Byte) (c : Nat) : (s.setResultThenFlag x b f).memRead c = s.memRead c := rfl
@[simp] theorem State.setResultThenFlag_key (x : Nibble) (b f : Byte) (j : Nibble) : (s.setResultThenFlag x b f).key j = s.key j := rfl
@[simp] theorem State.setResultThenFlag_nextPc (x : Nibble) (b f : Byte) : (s.setResultThenFlag x b f).nextPc = s.nextPc := rfl
@[simp] theorem State.setResultThenFlag_addrI (x : Nibble) (b f : Byte) (o : Nat) : (s.setResultThenFlag x b f).addrI o = s.addrI o := rfl

/-! ## push -/

@[simp] theorem State.push_v (a : Word) (h : s.sp.val < 16) : (s.push a h).v = s.v := rfl
@[simp] theorem State.push_i (a : Word) (h : s.sp.val < 16) : (s.push a h).i = s.i := rfl
@[simp] theorem State.push_pc (a : Word) (h : s.sp.val < 16) : (s.push a h).pc = s.pc := rfl
@[simp] theorem State.push_stack (a : Word) (h : s.sp.val < 16) : (s.push a h).stack = s.stack.set s.sp.val a h := rfl
@[simp] theorem State.push_dt (a : Word) (h : s.sp.val < 16) : (s.push a h).dt = s.dt := rfl
@[simp] theorem State.push_st (a : Word) (h : s.sp.val < 16) : (s.push a h).st = s.st := rfl
@[simp] theorem State.push_mem (a : Word) (h : s.sp.val < 16) : (s.push a h).mem = s.mem := rfl
@[simp] theorem State.push_fb (a : Word) (h : s.sp.val < 16) : (s.push a h).fb = s.fb := rfl
@[simp] theorem State.push_keys (a : Word) (h : s.sp.val < 16) : (s.push a h).keys = s.keys := rfl
@[simp] theorem State.push_wait (a : Word) (h : s.sp.val < 16) : (s.push a h).wait = s.wait := rfl
@[simp] theorem State.push_keyEv (a : Word) (h : s.sp.val < 16) : (s.push a h).keyEv = s.keyEv := rfl
@[simp] theorem State.push_dirty (a : Word) (h : s.sp.val < 16) : (s.push a h).dirty = s.dirty := rfl
@[simp] theorem State.push_fault (a : Word) (h : s.sp.val < 16) : (s.push a h).fault = s.fault := rfl
@[simp] theorem State.push_rng (a : Word) (h : s.sp.val < 16) : (s.push a h).rng = s.rng := rfl
@[simp] theorem State.push_getV (a : Word) (h : s.sp.val < 16) (r : Nibble) : (s.push a h).getV r = s.getV r := rfl
@[simp] theorem State.push_memRead (a : Word) (h : s.sp.val < 16) (c : Nat) : (s.push a h).memRead c = s.memRead c := rfl
@[simp] theorem State.push_key (a : Word) (h : s.sp.val < 16) (j : Nibble) : (s.push a h).key j = s.key j := rfl
@[simp] theorem State.push_nextPc (a : Word) (h : s.sp.val < 16) : (s.push a h).nextPc = s.nextPc := rfl
@[simp] theorem State.push_addrI (a : Word) (h : s.sp.val < 16) (o : Nat) : (s.push a h).addrI o = s.addrI o := rfl

/-! ## pop -/

@[simp] theorem State.pop_v : (s.pop).v = s.v := rfl
@[simp] theorem State.pop_i : (s.pop).i = s.i := rfl
@[simp] theorem State.pop_pc : (s.pop).pc = s.pc := rfl
@[simp] theorem State.pop_stack : (s.pop).stack = s.stack := rfl
@[simp] theorem State.pop_dt : (s.pop).dt = s.dt := rfl
@[simp] theorem State.pop_st : (s.pop).st = s.st := rfl
@[simp] theorem State.pop_mem : (s.pop).mem = s.mem := rfl
@[simp] theorem State.pop_fb : (s.pop).fb = s.fb := rfl
@[simp] theorem State.pop_keys : (s.pop).keys = s.keys := rfl
@[simp] theorem State.pop_wait : (s.pop).wait = s.wait := rfl
@[simp] theorem State.pop_keyEv : (s.pop).keyEv = s.keyEv := rfl
@[simp] theorem State.pop_dirty : (s.pop).dirty = s.dirty := rfl
@[simp] theorem State.pop_fault : (s.pop).fault = s.fault := rfl
@[simp] theorem State.pop_rng : (s.pop).rng = s.rng := rfl
@[simp] theorem State.pop_getV (r : Nibble) : (s.pop).getV r = s.getV r := rfl
@[simp] theorem State.pop_memRead (c : Nat) : (s.pop).memRead c = s.memRead c := rfl
@[simp] theorem State.pop_key (j : Nibble) : (s.pop).key j = s.key j := rfl
@[simp] theorem State.pop_nextPc : (s.pop).nextPc = s.nextPc := rfl
@[simp] theorem State.pop_addrI (o : Nat) : (s.pop).addrI o = s.addrI o := rfl

/-! ## setKey -/

@[simp] theorem State.setKey_v (k : Nibble) (b : Bool) : (s.setKey k b).v = s.v := rfl
@[simp] theorem State.setKey_i (k : Nibble) (b : Bool) : (s.setKey k b).i = s.i := rfl
@[simp] theorem State.setKey_pc (k : Nibble) (b : Bool) : (s.setKey k b).pc = s.pc := rfl
@[simp] theorem State.setKey_sp (k : Nibble) (b : Bool) : (s.setKey k b).sp = s.sp := rfl
@[simp] theorem State.setKey_stack (k : Nibble) (b : Bool) : (s.setKey k b).stack = s.stack := rfl
@[simp] theorem State.setKey_dt (k : Nibble) (b : Bool) : (s.setKey k b).dt = s.dt := rfl
@[simp] theorem State.setKey_st (k : Nibble) (b : Bool) : (s.setKey k b).st = s.st := rfl
@[simp] theorem State.setKey_mem (k : Nibble) (b : Bool) : (s.setKey k b).mem = s.mem := rfl
@[simp] theorem State.setKey_fb (k : Nibble) (b : Bool) : (s.setKey k b).fb = s.fb := rfl
@[simp] theorem State.setKey_wait (k : Nibble) (b : Bool) : (s.setKey k b).wait = s.wait := rfl
@[simp] theorem State.setKey_keyEv (k : Nibble) (b : Bool) : (s.setKey k b).keyEv = s.keyEv := rfl
@[simp] theorem State.setKey_dirty (k : Nibble) (b : Bool) : (s.setKey k b).dirty = s.dirty := rfl
@[simp] theorem State.setKey_fault (k : Nibble) (b : Bool) : (s.setKey k b).fault = s.fault := rfl
@[simp] theorem State.setKey_rng (k : Nibble) (b : Bool) : (s.setKey k b).rng = s.rng := rfl
@[simp] theorem State.setKey_getV (k : Nibble) (b : Bool) (r : Nibble) : (s.setKey k b).getV r = s.getV r := rfl
@[simp] theorem State.setKey_memRead (k : Nibble) (b : Bool) (c : Nat) : (s.setKey k b).memRead c = s.memRead c := rfl
@[simp] theorem State.setKey_nextPc (k : Nibble) (b : Bool) : (s.setKey k b).nextPc = s.nextPc := rfl
@[simp] theorem State.setKey_addrI (k : Nibble) (b : Bool) (o : Nat) : (s.setKey k b).addrI o = s.addrI o := rfl

/-! ## raise -/

@[simp] theorem State.raise_v (k : Fault) : (s.raise k).v = s.v := rfl
@[simp] theorem State.raise_i (k : Fault) : (s.raise k).i = s.i := rfl
@[simp] theorem State.raise_pc (k : Fault) : (s.raise k).pc = s.pc := rfl
@[simp] theorem State.raise_sp (k : Fault) : (s.raise k).sp = s.sp := rfl
@[simp] theorem State.raise_stack (k : Fault) : (s.raise k).stack = s.stack := rfl
@[simp] theorem State.raise_dt (k : Fault) : (s.raise k).dt = s.dt := rfl
@[simp] theorem State.raise_st (k : Fault) : (s.raise k).st = s.st := rfl
@[simp] theorem State.raise_mem (k : Fault) : (s.raise k).mem = s.mem := rfl
@[simp] theorem State.raise_fb (k : Fault) : (s.raise k).fb = s.fb := rfl
@[simp] theorem State.raise_keys (k : Fault) : (s.raise k).keys = s.keys := rfl
@[simp] theorem State.raise_wait (k : Fault) : (s.raise k).wait = s.wait := rfl
@[simp] theorem State.raise_keyEv (k : Fault) : (s.raise k).keyEv = s.keyEv := rfl
@[simp] theorem State.raise_dirty (k : Fault) : (s.raise k).dirty = s.dirty := rfl
@[simp] theorem State.raise_fault (k : Fault) : (s.raise k).fault = some ⟨k, s.pc⟩ := rfl
@[simp] theorem State.raise_rng (k : Fault) : (s.raise k).rng = s.rng := rfl
@[simp] theorem State.raise_getV (k : Fault) (r : Nibble) : (s.raise k).getV r = s.getV r := rfl
@[simp] theorem State.raise_memRead (k : Fault) (c : Nat) : (s.raise k).memRead c = s.memRead c := rfl
@[simp] theorem State.raise_key (k : Fault) (j : Nibble) : (s.raise k).key j = s.key j := rfl
@[simp] theorem State.raise_nextPc (k : Fault) : (s.raise k).nextPc = s.nextPc := rfl
@[simp] theorem State.raise_addrI (k : Fault) (o : Nat) : (s.raise k).addrI o = s.addrI o := rfl

/-! ## advance -/

@[simp] theorem State.advance_v : (s.advance).v = s.v := rfl
@[simp] theorem State.advance_i : (s.advance).i = s.i := rfl
@[simp] theorem State.advance_pc : (s.advance).pc = s.nextPc := rfl
@[simp] theorem State.advance_sp : (s.advance).sp = s.sp := rfl
@[simp] theorem State.advance_stack : (s.advance).stack = s.stack := rfl
@[simp] theorem State.advance_dt : (s.advance).dt = s.dt := rfl
@[simp] theorem State.advance_st : (s.advance).st = s.st := rfl
@[simp] theorem State.advance_mem : (s.advance).mem = s.mem := rfl
@[simp] theorem State.advance_fb : (s.advance).fb = s.fb := rfl
@[simp] theorem State.advance_keys : (s.advance).keys = s.keys := rfl
@[simp] theorem State.advance_wait : (s.advance).wait = s.wait := rfl
@[simp] theorem State.advance_keyEv : (s.advance).keyEv = s.keyEv := rfl
@[simp] theorem State.advance_dirty : (s.advance).dirty = s.dirty := rfl
@[simp] theorem State.advance_fault : (s.advance).fault = s.fault := rfl
@[simp] theorem State.advance_rng : (s.advance).rng = s.rng := rfl
@[simp] theorem State.advance_getV (r : Nibble) : (s.advance).getV r = s.getV r := rfl
@[simp] theorem State.advance_memRead (c : Nat) : (s.advance).memRead c = s.memRead c := rfl
@[simp] theorem State.advance_key (j : Nibble) : (s.advance).key j = s.key j := rfl
@[simp] theorem State.advance_addrI (o : Nat) : (s.advance).addrI o = s.addrI o := rfl

/-! ## skipIf -/

@[simp] theorem State.skipIf_v (c : Bool) : (s.skipIf c).v = s.v := rfl
@[simp] theorem State.skipIf_i (c : Bool) : (s.skipIf c).i = s.i := rfl
@[simp] theorem State.skipIf_pc (c : Bool) : (s.skipIf c).pc = if c then s.skipPc else s.nextPc := rfl
@[simp] theorem State.skipIf_sp (c : Bool) : (s.skipIf c).sp = s.sp := rfl
@[simp] theorem State.skipIf_stack (c : Bool) : (s.skipIf c).stack = s.stack := rfl
@[simp] theorem State.skipIf_dt (c : Bool) : (s.skipIf c).dt = s.dt := rfl
@[simp] theorem State.skipIf_st (c : Bool) : (s.skipIf c).st = s.st := rfl
@[simp] theorem State.skipIf_mem (c : Bool) : (s.skipIf c).mem = s.mem := rfl
@[simp] theorem State.skipIf_fb (c : Bool) : (s.skipIf c).fb = s.fb := rfl
@[simp] theorem State.skipIf_keys (c : Bool) : (s.skipIf c).keys = s.keys := rfl
@[simp] theorem State.skipIf_wait (c : Bool) : (s.skipIf c).wait = s.wait := rfl
@[simp] theorem State.skipIf_keyEv (c : Bool) : (s.skipIf c).keyEv = s.keyEv := rfl
@[simp] theorem State.skipIf_dirty (c : Bool) : (s.skipIf c).dirty = s.dirty := rfl
@[simp] theorem State.skipIf_fault (c : Bool) : (s.skipIf c).fault = s.fault := rfl
@[simp] theorem State.skipIf_rng (c : Bool) : (s.skipIf c).rng = s.rng := rfl
@[simp] theorem State.skipIf_getV (c : Bool) (r : Nibble) : (s.skipIf c).getV r = s.getV r := rfl
@[simp] theorem State.skipIf_memRead (c : Bool) (a : Nat) : (s.skipIf c).memRead a = s.memRead a := rfl
@[simp] theorem State.skipIf_key (c : Bool) (j : Nibble) : (s.skipIf c).key j = s.key j := rfl
@[simp] theorem State.skipIf_addrI (c : Bool) (o : Nat) : (s.skipIf c).addrI o = s.addrI o := rfl

/-! ## jumpTo -/

@[simp] theorem State.jumpTo_v (w : Word) : (s.jumpTo w).v = s.v := rfl
@[simp] theorem State.jumpTo_i (w : Word) : (s.jumpTo w).i = s.i := rfl
@[simp] theorem State.jumpTo_pc (w : Word) : (s.jumpTo w).pc = w := rfl
@[simp] theorem State.jumpTo_sp (w : Word) : (s.jumpTo w).sp = s.sp := rfl
@[simp] theorem State.jumpTo_stack (w : Word) : (s.jumpTo w).stack = s.stack := rfl
@[simp] theorem State.jumpTo_dt (w : Word) : (s.jumpTo w).dt = s.dt := rfl
@[simp] theorem State.jumpTo_st (w : Word) : (s.jumpTo w).st = s.st := rfl
@[simp] theorem State.jumpTo_mem (w : Word) : (s.jumpTo w).mem = s.mem := rfl
@[simp] theorem State.jumpTo_fb (w : Word) : (s.jumpTo w).fb = s.fb := rfl
@[simp] theorem State.jumpTo_keys (w : Word) : (s.jumpTo w).keys = s.keys := rfl
@[simp] theorem State.jumpTo_wait (w : Word) : (s.jumpTo w).wait = s.wait := rfl
@[simp] theorem State.jumpTo_keyEv (w : Word) : (s.jumpTo w).keyEv = s.keyEv := rfl
@[simp] theorem State.jumpTo_dirty (w : Word) : (s.jumpTo w).dirty = s.dirty := rfl
@[simp] theorem State.jumpTo_fault (w : Word) : (s.jumpTo w).fault = s.fault := rfl
@[simp] theorem State.jumpTo_rng (w : Word) : (s.jumpTo w).rng = s.rng := rfl
@[simp] theorem State.jumpTo_getV (w : Word) (r : Nibble) : (s.jumpTo w).getV r = s.getV r := rfl
@[simp] theorem State.jumpTo_memRead (w : Word) (c : Nat) : (s.jumpTo w).memRead c = s.memRead c := rfl
@[simp] theorem State.jumpTo_key (w : Word) (j : Nibble) : (s.jumpTo w).key j = s.key j := rfl
@[simp] theorem State.jumpTo_addrI (w : Word) (o : Nat) : (s.jumpTo w).addrI o = s.addrI o := rfl

/-! ## countTimers -/

@[simp] theorem State.countTimers_v : (s.countTimers).v = s.v := rfl
@[simp] theorem State.countTimers_i : (s.countTimers).i = s.i := rfl
@[simp] theorem State.countTimers_pc : (s.countTimers).pc = s.pc := rfl
@[simp] theorem State.countTimers_sp : (s.countTimers).sp = s.sp := rfl
@[simp] theorem State.countTimers_stack : (s.countTimers).stack = s.stack := rfl
@[simp] theorem State.countTimers_dt : (s.countTimers).dt = countDown s.dt := rfl
@[simp] theorem State.countTimers_st : (s.countTimers).st = countDown s.st := rfl
@[simp] theorem State.countTimers_mem : (s.countTimers).mem = s.mem := rfl
@[simp] theorem State.countTimers_fb : (s.countTimers).fb = s.fb := rfl
@[simp] theorem State.countTimers_keys : (s.countTimers).keys = s.keys := rfl
@[simp] theorem State.countTimers_wait : (s.countTimers).wait = s.wait := rfl
@[simp] theorem State.countTimers_keyEv : (s.countTimers).keyEv = s.keyEv := rfl
@[simp] theorem State.countTimers_dirty : (s.countTimers).dirty = s.dirty := rfl
@[simp] theorem State.countTimers_fault : (s.countTimers).fault = s.fault := rfl
@[simp] theorem State.countTimers_rng : (s.countTimers).rng = s.rng := rfl
@[simp] theorem State.countTimers_getV (r : Nibble) : (s.countTimers).getV r = s.getV r := rfl
@[simp] theorem State.countTimers_memRead (c : Nat) : (s.countTimers).memRead c = s.memRead c := rfl
@[simp] theorem State.countTimers_key (j : Nibble) : (s.countTimers).key j = s.key j := rfl
@[simp] theorem State.countTimers_nextPc : (s.countTimers).nextPc = s.nextPc := rfl
@[simp] theorem State.countTimers_addrI (o : Nat) : (s.countTimers).addrI o = s.addrI o := rfl

/-! ## The values push and pop give SP -/

@[simp] theorem State.push_sp_val (a : Word) (h : s.sp.val < 16) : (s.push a h).sp.val = s.sp.val + 1 := rfl
@[simp] theorem State.pop_sp_val : s.pop.sp.val = s.sp.val - 1 := rfl

/-! ## The random source -/

@[simp] theorem State.rand_fst : s.rand.1 = (rngNext s.rng).1 := rfl
@[simp] theorem State.rand_snd : s.rand.2 = { s with rng := (rngNext s.rng).2 } := rfl

end Sys2Proof.Machine
end

