-- ==== Sys2Proof/Laws/Display.lean ====
section
/-! SUPPORT. The framebuffer: one cell after one write, and what the two loops of the rasterizer do to every cell and
to the collision flag (spec/43_display.md R140, R141). -/

namespace Sys2Proof.Machine

/-- One cell after one cell write, anywhere. -/
theorem Framebuffer.cell_setCell (fb : Framebuffer) (px py qx qy : Nat) (b : Bool) :
    Framebuffer.cell (Framebuffer.setCell fb px py b) qx qy =
      if qx = px ∧ qy = py ∧ px < 64 ∧ py < 32 then b else Framebuffer.cell fb qx qy := by
  unfold Framebuffer.cell Framebuffer.setCell
  by_cases hp : px < 64 ∧ py < 32
  · by_cases hq : qx < 64 ∧ qy < 32
    · simp only [hp, hq, and_self, dif_pos, Vector.getElem_set]
      by_cases hy : py = qy
      · subst hy
        by_cases hx : px = qx
        · simp [hx]
        · simp [hx, Ne.symm hx]
      · simp [hy, Ne.symm hy]
    · rw [dif_neg hq, dif_neg hq, if_neg]
      rintro ⟨rfl, rfl, h⟩
      exact hq h
  · rw [dif_neg hp, if_neg]
    rintro ⟨-, -, h⟩
    exact hp h

/-- Every cell of the cleared plane is off. -/
@[simp] theorem Framebuffer.cell_clear (px py : Nat) :
    Framebuffer.cell Framebuffer.clear px py = false := by
  unfold Framebuffer.cell Framebuffer.clear
  split_ifs <;> simp

/-- Two planes with the same cells are the same plane. -/
theorem Framebuffer.ext_cell {fb gb : Framebuffer}
    (h : ∀ px py, px < 64 → py < 32 → Framebuffer.cell fb px py = Framebuffer.cell gb px py) : fb = gb := by
  apply Vector.ext
  intro py hy
  apply Vector.ext
  intro px hx
  have := h px py hx hy
  simpa [Framebuffer.cell, hx, hy] using this

/-! ## one pixel -/

/-- What plotting one pixel does to a cell: the sprite bit is XORed in at its own place. -/
theorem plotPixel_cell (byte : Byte) (x0 py b : Nat) (p : Plot) (hy : py < 32) (qx qy : Nat) :
    Framebuffer.cell (plotPixel byte x0 py b p).1 qx qy =
      (Framebuffer.cell p.1 qx qy ^^
        (decide (qx = x0 + b) && decide (qy = py) && decide (qx < 64) && spriteBit byte b)) := by
  unfold plotPixel
  split_ifs with h
  · rw [Framebuffer.cell_setCell]
    by_cases hq : qx = x0 + b ∧ qy = py
    · obtain ⟨rfl, rfl⟩ := hq
      have h64 : x0 + b < 64 := by omega
      simp [h64, hy]
    · rw [if_neg (fun hc => hq ⟨hc.1, hc.2.1⟩)]
      have : (decide (qx = x0 + b) && decide (qy = py)) = false := by
        rw [Bool.and_eq_false_iff, decide_eq_false_iff_not, decide_eq_false_iff_not]
        by_cases hx : qx = x0 + b
        · exact .inr fun h' => hq ⟨hx, h'⟩
        · exact .inl hx
      simp [this]
  · have : (decide (qx = x0 + b) && decide (qx < 64)) = false := by
      rw [Bool.and_eq_false_iff, decide_eq_false_iff_not, decide_eq_false_iff_not]
      omega
    by_cases hx : qx = x0 + b
    · have : ¬ qx < 64 := by omega
      simp [this]
    · simp [hx]

/-- When plotting one pixel records a collision. -/
theorem plotPixel_hit (byte : Byte) (x0 py b : Nat) (p : Plot) :
    (plotPixel byte x0 py b p).2 = true ↔
      p.2 = true ∨ (x0 + b < 64 ∧ spriteBit byte b = true ∧ Framebuffer.cell p.1 (x0 + b) py = true) := by
  unfold plotPixel
  split_ifs with h
  · have h64 : x0 + b < 64 := by omega
    cases hc : Framebuffer.cell p.1 (x0 + b) py <;> cases hs : spriteBit byte b <;> simp [h64]
  · have : ¬ x0 + b < 64 := by omega
    simp [this]

/-! ## one row -/

/-- What the inner loop does to a cell. -/
theorem plotRow_cell (byte : Byte) (x0 py : Nat) (hy : py < 32) (n : Nat) (p : Plot) (qx qy : Nat) :
    Framebuffer.cell (plotRow byte x0 py n p).1 qx qy =
      (Framebuffer.cell p.1 qx qy ^^
        (decide (x0 ≤ qx) && decide (qx < x0 + n) && decide (qy = py) && decide (qx < 64) &&
          spriteBit byte (qx - x0))) := by
  induction n with
  | zero =>
    have : (decide (x0 ≤ qx) && decide (qx < x0 + 0)) = false := by
      rw [Bool.and_eq_false_iff, decide_eq_false_iff_not, decide_eq_false_iff_not]
      omega
    simp only [this, Bool.false_and, Bool.xor_false]
    rfl
  | succ n ih =>
    rw [plotRow, plotPixel_cell _ _ _ _ _ hy, ih]
    by_cases hx : qx = x0 + n
    · subst hx
      simp
    · have : decide (qx < x0 + (n + 1)) = decide (qx < x0 + n) := by
        rw [decide_eq_decide]
        omega
      simp [hx, this]

/-- When the inner loop records a collision. The columns are distinct, so each cell it reads is still as it was. -/
theorem plotRow_hit (byte : Byte) (x0 py : Nat) (hy : py < 32) (n : Nat) (p : Plot) :
    (plotRow byte x0 py n p).2 = true ↔
      p.2 = true ∨ ∃ b, b < n ∧ x0 + b < 64 ∧ spriteBit byte b = true ∧
        Framebuffer.cell p.1 (x0 + b) py = true := by
  induction n with
  | zero => simp [plotRow]
  | succ n ih =>
    have hcell : Framebuffer.cell (plotRow byte x0 py n p).1 (x0 + n) py = Framebuffer.cell p.1 (x0 + n) py := by
      rw [plotRow_cell _ _ _ hy]
      simp
    rw [plotRow, plotPixel_hit, ih, hcell]
    constructor
    · rintro ((h | ⟨b, hb, h⟩) | h)
      · exact .inl h
      · exact .inr ⟨b, by omega, h⟩
      · exact .inr ⟨n, by omega, h⟩
    · rintro (h | ⟨b, hb, h⟩)
      · exact .inl (.inl h)
      · by_cases hbn : b = n
        · exact .inr (hbn ▸ h)
        · exact .inl (.inr ⟨b, by omega, h⟩)

/-! ## all rows -/

/-- What the outer loop does to a cell of the plane. -/
theorem State.plotRows_cell (s : State) (x0 y0 n : Nat) (p : Plot) (qx qy : Nat) (hx : qx < 64) (hy : qy < 32) :
    Framebuffer.cell (s.plotRows x0 y0 n p).1 qx qy =
      (Framebuffer.cell p.1 qx qy ^^
        (decide (x0 ≤ qx) && decide (qx < x0 + 8) && decide (y0 ≤ qy) && decide (qy < y0 + n) &&
          spriteBit (s.memRead (s.addrI (qy - y0))) (qx - x0))) := by
  induction n with
  | zero =>
    have : (decide (y0 ≤ qy) && decide (qy < y0 + 0)) = false := by
      rw [Bool.and_eq_false_iff, decide_eq_false_iff_not, decide_eq_false_iff_not]
      omega
    rw [State.plotRows, Bool.and_assoc (decide (x0 ≤ qx) && decide (qx < x0 + 8)), this]
    simp
  | succ n ih =>
    have hne : qy ≠ y0 + n → decide (qy < y0 + (n + 1)) = decide (qy < y0 + n) := by
      intro h
      rw [decide_eq_decide]
      omega
    rw [State.plotRows]
    split_ifs with h31
    · rw [plotRow_cell _ _ _ (by omega), ih]
      by_cases h : qy = y0 + n
      · subst h
        simp [hx]
      · simp [h, hne h]
    · rw [ih, hne (by omega)]

/-- When the outer loop records a collision. The rows are distinct, so each cell it reads is still as it was. -/
theorem State.plotRows_hit (s : State) (x0 y0 n : Nat) (p : Plot) :
    (s.plotRows x0 y0 n p).2 = true ↔
      p.2 = true ∨ ∃ r b, r < n ∧ b < 8 ∧ x0 + b < 64 ∧ y0 + r < 32 ∧
        spriteBit (s.memRead (s.addrI r)) b = true ∧ Framebuffer.cell p.1 (x0 + b) (y0 + r) = true := by
  induction n with
  | zero => simp [State.plotRows]
  | succ n ih =>
    rw [State.plotRows]
    split_ifs with h31
    · have hcell : ∀ b, x0 + b < 64 →
          Framebuffer.cell (s.plotRows x0 y0 n p).1 (x0 + b) (y0 + n) =
            Framebuffer.cell p.1 (x0 + b) (y0 + n) := by
        intro b hb
        rw [State.plotRows_cell _ _ _ _ _ _ _ hb (by omega)]
        simp
      rw [plotRow_hit _ _ _ (by omega), ih]
      constructor
      · rintro ((h | ⟨r, b, hr, h⟩) | ⟨b, hb, h64, hs, hc⟩)
        · exact .inl h
        · exact .inr ⟨r, b, by omega, h⟩
        · exact .inr ⟨n, b, by omega, hb, h64, by omega, hs, by rwa [hcell b h64] at hc⟩
      · rintro (h | ⟨r, b, hr, hb, h64, h32, hs, hc⟩)
        · exact .inl (.inl h)
        · by_cases hrn : r = n
          · subst hrn
            exact .inr ⟨b, hb, h64, hs, by rwa [hcell b h64]⟩
          · exact .inl (.inr ⟨r, b, by omega, hb, h64, h32, hs, hc⟩)
    · rw [ih]
      constructor
      · rintro (h | ⟨r, b, hr, h⟩)
        · exact .inl h
        · exact .inr ⟨r, b, by omega, h⟩
      · rintro (h | ⟨r, b, hr, hb, h64, h32, h⟩)
        · exact .inl h
        · exact .inr ⟨r, b, by omega, hb, h64, h32, h⟩

/-! ## the whole draw -/

/-- The sprite said without the loops, in the model's own words. -/
theorem State.spriteOn_eq (s : State) (x y n : Nibble) (px py : Nat) :
    s.spriteOn x y n px py =
      (decide (s.originX x ≤ px) && decide (px < s.originX x + 8) && decide (s.originY y ≤ py) &&
        decide (py < s.originY y + n.toNat) &&
          spriteBit (s.memRead (s.addrI (py - s.originY y))) (px - s.originX x)) := by
  unfold State.spriteOn
  simp only [Bool.decide_and, Bool.and_assoc]
  rfl

/-- A cell of the plane after the draw. -/
theorem State.drawn_cell (s : State) (x y n : Nibble) (px py : Nat) (hx : px < 64) (hy : py < 32) :
    Framebuffer.cell (s.drawn x y n).1 px py = (Framebuffer.cell s.fb px py ^^ s.spriteOn x y n px py) := by
  unfold State.drawn
  rw [State.plotRows_cell _ _ _ _ _ _ _ hx hy, State.spriteOn_eq]

/-- When the draw records a collision. -/
theorem State.drawn_hit (s : State) (x y n : Nibble) :
    (s.drawn x y n).2 = true ↔ ∃ px py, px < 64 ∧ py < 32 ∧ s.spriteOn x y n px py = true ∧
      Framebuffer.cell s.fb px py = true := by
  unfold State.drawn
  rw [State.plotRows_hit]
  simp only [State.spriteOn_eq]
  constructor
  · rintro (h | ⟨r, b, hr, hb, h64, h32, hs, hc⟩)
    · cases h
    · exact ⟨_, _, h64, h32, by simp [hb, hr, hs], hc⟩
  · rintro ⟨px, py, hx, hy, hs, hc⟩
    simp only [Bool.and_eq_true, decide_eq_true_eq] at hs
    obtain ⟨⟨⟨⟨h1, h2⟩, h3⟩, h4⟩, h5⟩ := hs
    refine .inr ⟨py - s.originY y, px - s.originX x, by omega, by omega, by omega, by omega, h5, ?_⟩
    rw [show s.originX x + (px - s.originX x) = px by omega,
      show s.originY y + (py - s.originY y) = py by omega]
    exact hc

end Sys2Proof.Machine
end

