-- ==== Sys2Proof/Laws/Memory.lean ====
section
/-! SUPPORT. Memory: a read after a write, and that every memory operation keeps the canonical form
(spec/20_memory.md R40, R41). The read laws hold of every list; the form is needed for equality only. -/

namespace Sys2Proof.Machine

/-! ## lookup after insert and erase -/

theorem Memory.lookup_insert_same (m : Memory) (a : Nat) (b : Byte) :
    Memory.lookup (Memory.insert m a b) a = some b := by
  induction m with
  | nil => simp [Memory.insert, Memory.lookup]
  | cons e m ih =>
    obtain ⟨k, c⟩ := e
    simp only [Memory.insert]
    split_ifs with h1 h2
    · simp [Memory.lookup]
    · simp [Memory.lookup]
    · have : k ≠ a := fun h => h2 h.symm
      simp [Memory.lookup, this, ih]

theorem Memory.lookup_insert_other (m : Memory) {a c : Nat} (b : Byte) (h : c ≠ a) :
    Memory.lookup (Memory.insert m a b) c = Memory.lookup m c := by
  induction m with
  | nil => simp [Memory.insert, Memory.lookup, h.symm]
  | cons e m ih =>
    obtain ⟨k, d⟩ := e
    simp only [Memory.insert]
    split_ifs with h1 h2
    · simp [Memory.lookup, h.symm]
    · simp [Memory.lookup, h.symm, ← h2]
    · simp [Memory.lookup, ih]

theorem Memory.lookup_erase_same (m : Memory) (a : Nat) : Memory.lookup (Memory.erase m a) a = none := by
  induction m with
  | nil => rfl
  | cons e m ih =>
    obtain ⟨k, d⟩ := e
    simp only [Memory.erase]
    split_ifs with h
    · exact ih
    · simp [Memory.lookup, h, ih]

theorem Memory.lookup_erase_other (m : Memory) {a c : Nat} (h : c ≠ a) :
    Memory.lookup (Memory.erase m a) c = Memory.lookup m c := by
  induction m with
  | nil => rfl
  | cons e m ih =>
    obtain ⟨k, d⟩ := e
    simp only [Memory.erase]
    split_ifs with h1
    · simp [Memory.lookup, ih, h1, h.symm]
    · simp [Memory.lookup, ih]

/-! ## read after write -/

theorem Memory.read_write_same (m : Memory) (a : Nat) (b : Byte) :
    Memory.read (Memory.write m a b) a = b := by
  unfold Memory.read Memory.write
  split_ifs with h
  · simp [Memory.lookup_erase_same, h]
  · simp [Memory.lookup_insert_same]

theorem Memory.read_write_other (m : Memory) {a c : Nat} (b : Byte) (h : c ≠ a) :
    Memory.read (Memory.write m a b) c = Memory.read m c := by
  unfold Memory.read Memory.write
  split_ifs
  · rw [Memory.lookup_erase_other m h]
  · rw [Memory.lookup_insert_other m b h]

/-- One read after one write, whatever the two addresses. -/
theorem Memory.read_write (m : Memory) (a c : Nat) (b : Byte) :
    Memory.read (Memory.write m a b) c = if c = a then b else Memory.read m c := by
  split_ifs with h
  · rw [h, Memory.read_write_same]
  · exact Memory.read_write_other m b h

/-- The same through the machine's primitives, both addresses masked. -/
theorem State.memRead_memWrite_mask (s : State) (a c : Nat) (b : Byte) :
    (s.memWrite a b).memRead c = if maskAddr c = maskAddr a then b else s.memRead c :=
  Memory.read_write s.mem (maskAddr a) (maskAddr c) b

/-! ## the canonical form -/

theorem Memory.wfFrom_mono {lo lo' : Nat} (m : Memory) (h : lo' ≤ lo) (hm : Memory.wfFrom lo m = true) :
    Memory.wfFrom lo' m = true := by
  cases m with
  | nil => rfl
  | cons e m =>
    obtain ⟨k, c⟩ := e
    simp only [Memory.wfFrom, Bool.and_eq_true, decide_eq_true_eq] at hm ⊢
    exact ⟨⟨⟨by omega, hm.1.1.2⟩, hm.1.2⟩, hm.2⟩

theorem Memory.insert_wfFrom {lo a : Nat} {b : Byte} (m : Memory) (hlo : lo ≤ a) (ha : a < 4096)
    (hb : b ≠ resetByte a) (hm : Memory.wfFrom lo m = true) :
    Memory.wfFrom lo (Memory.insert m a b) = true := by
  induction m generalizing lo with
  | nil => simp [Memory.insert, Memory.wfFrom, hlo, ha, hb]
  | cons e m ih =>
    obtain ⟨k, c⟩ := e
    simp only [Memory.wfFrom, Bool.and_eq_true, decide_eq_true_eq, bne_iff_ne, ne_eq] at hm
    obtain ⟨⟨⟨h1, h2⟩, h3⟩, h4⟩ := hm
    simp only [Memory.insert]
    split_ifs with hlt heq
    · simp only [Memory.wfFrom, Bool.and_eq_true, decide_eq_true_eq, bne_iff_ne, ne_eq]
      exact ⟨⟨⟨hlo, ha⟩, hb⟩, ⟨⟨by omega, h2⟩, h3⟩, h4⟩
    · subst heq
      simp only [Memory.wfFrom, Bool.and_eq_true, decide_eq_true_eq, bne_iff_ne, ne_eq]
      exact ⟨⟨⟨hlo, ha⟩, hb⟩, h4⟩
    · simp only [Memory.wfFrom, Bool.and_eq_true, decide_eq_true_eq, bne_iff_ne, ne_eq]
      exact ⟨⟨⟨h1, h2⟩, h3⟩, ih (by omega) h4⟩

theorem Memory.erase_wfFrom {lo : Nat} (m : Memory) (a : Nat) (hm : Memory.wfFrom lo m = true) :
    Memory.wfFrom lo (Memory.erase m a) = true := by
  induction m generalizing lo with
  | nil => rfl
  | cons e m ih =>
    obtain ⟨k, c⟩ := e
    simp only [Memory.wfFrom, Bool.and_eq_true, decide_eq_true_eq, bne_iff_ne, ne_eq] at hm
    obtain ⟨⟨⟨h1, h2⟩, h3⟩, h4⟩ := hm
    simp only [Memory.erase]
    split_ifs
    · exact Memory.wfFrom_mono _ (by omega) (ih h4)
    · simp only [Memory.wfFrom, Bool.and_eq_true, decide_eq_true_eq, bne_iff_ne, ne_eq]
      exact ⟨⟨⟨h1, h2⟩, h3⟩, ih h4⟩

/-- A write inside the address space keeps the canonical form. -/
theorem Memory.write_wf {a : Nat} (m : Memory) (b : Byte) (ha : a < 4096) (hm : Memory.wf m = true) :
    Memory.wf (Memory.write m a b) = true := by
  unfold Memory.write
  split_ifs with h
  · exact Memory.erase_wfFrom m a hm
  · exact Memory.insert_wfFrom m (Nat.zero_le a) ha h hm

theorem maskAddr_lt (a : Nat) : maskAddr a < 4096 := Nat.mod_lt _ (by decide)

/-- MemWrite keeps the canonical form. -/
theorem State.memWrite_wf (s : State) (a : Nat) (b : Byte) (h : Memory.wf s.mem = true) :
    Memory.wf (s.memWrite a b).mem = true :=
  Memory.write_wf s.mem b (maskAddr_lt a) h

/-- The loader's copy keeps the canonical form. -/
theorem State.memWriteList_wf (bytes : List Byte) (s : State) (a : Nat) (h : Memory.wf s.mem = true) :
    Memory.wf (s.memWriteList a bytes).mem = true := by
  induction bytes generalizing s a with
  | nil => exact h
  | cons b bs ih => exact ih _ _ (s.memWrite_wf a b h)

/-- Reset memory is in the canonical form. -/
theorem resetWith_mem_wf (seed : Nat) : Memory.wf (State.resetWith seed).mem = true := rfl

/-! ## the mask -/

theorem maskAddr_eq_and (a : Nat) : maskAddr a = a &&& 0xFFF := by
  rw [show (0xFFF : Nat) = 2 ^ 12 - 1 from rfl, Nat.and_two_pow_sub_one_eq_mod]
  rfl

@[simp] theorem maskAddr_maskAddr (a : Nat) : maskAddr (maskAddr a) = maskAddr a := Nat.mod_mod _ _

theorem maskAddr_of_lt {a : Nat} (h : a < 4096) : maskAddr a = a := Nat.mod_eq_of_lt h

/-- The addresses one instruction touches are distinct modulo 4096 (R47). -/
theorem maskAddr_add_inj {a j k : Nat} (hj : j < 4096) (hk : k < 4096) :
    maskAddr (a + j) = maskAddr (a + k) ↔ j = k := by
  unfold maskAddr
  omega

/-- Nothing is listed below the address the form starts from. -/
theorem Memory.lookup_of_lt {lo a : Nat} {m : Memory} (hm : Memory.wfFrom lo m = true) (ha : a < lo) :
    Memory.lookup m a = none := by
  induction m generalizing lo with
  | nil => rfl
  | cons e m ih =>
    obtain ⟨k, c⟩ := e
    simp only [Memory.wfFrom, Bool.and_eq_true, decide_eq_true_eq] at hm
    have : k ≠ a := by omega
    simp [Memory.lookup, this, ih hm.2 (by omega)]

/-! ## the loader's copy (R188) -/

/-- Copying bytes changes memory and nothing else. -/
theorem State.memWriteList_eq (bytes : List Byte) (s : State) (a : Nat) :
    s.memWriteList a bytes = { s with mem := (s.memWriteList a bytes).mem } := by
  induction bytes generalizing s a with
  | nil => rfl
  | cons b bs ih =>
    rw [State.memWriteList, ih]
    rfl

/-- Outside the copied bytes memory reads as before. -/
theorem State.memRead_memWriteList_other (bytes : List Byte) (s : State) (a c : Nat)
    (h : ∀ j, j < bytes.length → maskAddr c ≠ maskAddr (a + j)) :
    (s.memWriteList a bytes).memRead c = s.memRead c := by
  induction bytes generalizing s a with
  | nil => rfl
  | cons b bs ih =>
    have hbs : ∀ j, j < bs.length → maskAddr c ≠ maskAddr (a + 1 + j) := by
      intro j hj
      have := h (j + 1) (by simpa using hj)
      rwa [show a + (j + 1) = a + 1 + j by omega] at this
    rw [State.memWriteList, ih _ _ hbs]
    exact (s.memRead_memWrite_mask a c b).trans (if_neg (h 0 (by simp)))

/-- Each copied byte reads back, when the copy does not come round to its own start. -/
theorem State.memRead_memWriteList (bytes : List Byte) (s : State) (a j : Nat) (hl : bytes.length ≤ 4096)
    (hj : j < bytes.length) : (s.memWriteList a bytes).memRead (a + j) = bytes[j] := by
  induction bytes generalizing s a j with
  | nil => cases hj
  | cons b bs ih =>
    simp only [List.length_cons] at hl
    rw [State.memWriteList]
    cases j with
    | zero =>
      rw [State.memRead_memWriteList_other]
      · exact (s.memRead_memWrite_mask a a b).trans (if_pos rfl)
      · intro j hj'
        rw [show a + 1 + j = a + (j + 1) by omega, ne_eq, maskAddr_add_inj (by omega) (by omega)]
        omega
    | succ j =>
      rw [show a + (j + 1) = a + 1 + j by omega, ih _ _ _ (by omega) (by simpa using hj)]
      rfl

end Sys2Proof.Machine
end

