-- ==== Sys2Proof/Laws/Operands.lean ====
section
/-! SUPPORT. The operand forms as numbers: masks, zero extensions and the addresses of one transfer. -/

namespace Sys2Proof.Machine

/-- The 12-bit mask is a remainder. -/
theorem and_mask12_toNat (w : Word) : (w &&& 0x0FFF).toNat = w.toNat % 4096 := by
  rw [BitVec.toNat_and]
  exact Nat.and_two_pow_sub_one_eq_mod _ 12

theorem and_mask12_lt (w : Word) : (w &&& 0x0FFF).toNat < 4096 := by
  rw [and_mask12_toNat]
  exact Nat.mod_lt _ (by decide)

/-- NEXT is an address (R68). -/
theorem State.nextPc_lt (s : State) : s.nextPc.toNat < 4096 := and_mask12_lt _

/-- SKIP is an address (R68). -/
theorem State.skipPc_lt (s : State) : s.skipPc.toNat < 4096 := and_mask12_lt _

/-- The target of `Bnnn` is an address (R84). -/
theorem State.indexedTarget_lt (s : State) (nnn : Addr) : (s.indexedTarget nnn).toNat < 4096 := and_mask12_lt _

@[simp] theorem immAddr_toNat (nnn : Addr) : (immAddr nnn).toNat = nnn.toNat := by
  have := nnn.isLt
  unfold immAddr
  rw [BitVec.toNat_setWidth]
  omega

theorem immAddr_lt (nnn : Addr) : (immAddr nnn).toNat < 4096 := by
  rw [immAddr_toNat]
  exact nnn.isLt

/-- A nibble zero-extended to a byte keeps its value. -/
theorem zext8_nibble_toNat (k : Nibble) : (k.setWidth 8 : Byte).toNat = k.toNat := by
  have := k.isLt
  rw [BitVec.toNat_setWidth]
  omega

/-- The low four bits of a byte are a remainder. -/
theorem and_mask4_toNat (b : Byte) : (b &&& 0x0F).toNat = b.toNat % 16 := by
  rw [BitVec.toNat_and]
  exact Nat.and_two_pow_sub_one_eq_mod _ 4

/-- The key a skip tests, as a number (R150). -/
theorem State.keyIndex_eq (s : State) (x : Nibble) :
    s.keyIndex x = BitVec.ofNat 4 ((s.getV x).toNat % 16) := by
  apply BitVec.eq_of_toNat_eq
  unfold State.keyIndex
  rw [BitVec.toNat_setWidth, and_mask4_toNat, BitVec.toNat_ofNat]

/-- The bytes of one transfer stand at different addresses, also after the mask (R47). -/
theorem State.maskAddr_addrI_ne (s : State) {j k : Nat} (hj : j < 4096) (hk : k < 4096) (h : j ≠ k) :
    maskAddr (s.addrI j) ≠ maskAddr (s.addrI k) := by
  unfold State.addrI
  rw [ne_eq, maskAddr_add_inj hj hk]
  exact h

end Sys2Proof.Machine
end

