-- ==== Sys2Proof/Laws/PerInstr.lean ====
section
/-! SUPPORT. One law per instruction as syntax: its word selects a row of the opcode map that builds the instruction
back from the word's fields (spec/30_encoding.md R62, R64). That it is the FIRST row the word selects is
not said here. -/

namespace Sys2Proof.Laws.SelectsItsRow

/-- Some row of the map is selected by the instruction's word and builds the instruction from it. -/
def Statement (i : Instr) : Prop :=
  ∃ row ∈ opcodeTable, row.selects (encode i) = true ∧ row.build (encode i) = i

/-- A row of the map by its place. -/
theorem of_row {i : Instr} (k : Fin 35) (hs : (opcodeTable[k]'k.isLt).selects (encode i) = true)
    (hb : (opcodeTable[k]'k.isLt).build (encode i) = i) : Statement i :=
  ⟨opcodeTable[k]'k.isLt, List.getElem_mem _, hs, hb⟩

/-- Format NNN: the row fixes the top nibble. -/
theorem of_nnn {row : OpcodeRow} (t : Nibble) (nnn : Addr) (hm : row.mask = 0xF000)
    (hv : row.value = wordOfNibbles t 0 0 0) : row.selects (wordNNN t nnn) = true := by
  rw [wordNNN_eq]
  exact OpcodeRow.selects_top _ _ _ _ hm hv

/-- Format XKK: the row fixes the top nibble. -/
theorem of_xkk {row : OpcodeRow} (t x : Nibble) (kk : Byte) (hm : row.mask = 0xF000)
    (hv : row.value = wordOfNibbles t 0 0 0) : row.selects (wordXKK t x kk) = true := by
  rw [wordXKK_eq]
  exact OpcodeRow.selects_top _ _ _ _ hm hv

/-- Format X: the row fixes the top nibble and the low byte. -/
theorem of_x {row : OpcodeRow} (t x : Nibble) (kk : Byte) (hm : row.mask = 0xF0FF)
    (hv : row.value = wordOfNibbles t 0 (kk.extractLsb' 4 4) (kk.extractLsb' 0 4)) :
    row.selects (wordXKK t x kk) = true := by
  rw [wordXKK_eq]
  exact OpcodeRow.selects_top_byte _ _ _ _ hm hv

theorem cls : Statement .cls :=
  of_row 0 rfl rfl

theorem ret : Statement .ret :=
  of_row 1 rfl rfl

theorem sys (nnn : Addr) : Statement (.sys nnn) :=
  of_row 2 (of_nnn 0x0 nnn rfl rfl) (congrArg Instr.sys (fieldNNN_wordNNN 0x0 nnn))

theorem jp (nnn : Addr) : Statement (.jp nnn) :=
  of_row 3 (of_nnn 0x1 nnn rfl rfl) (congrArg Instr.jp (fieldNNN_wordNNN 0x1 nnn))

theorem call (nnn : Addr) : Statement (.call nnn) :=
  of_row 4 (of_nnn 0x2 nnn rfl rfl) (congrArg Instr.call (fieldNNN_wordNNN 0x2 nnn))

theorem seImm (x : Nibble) (kk : Byte) : Statement (.seImm x kk) :=
  of_row 5 (of_xkk 0x3 x kk rfl rfl) (congrArg₂ Instr.seImm (fieldX_wordXKK 0x3 x kk) (fieldKK_wordXKK 0x3 x kk))

theorem sneImm (x : Nibble) (kk : Byte) : Statement (.sneImm x kk) :=
  of_row 6 (of_xkk 0x4 x kk rfl rfl) (congrArg₂ Instr.sneImm (fieldX_wordXKK 0x4 x kk) (fieldKK_wordXKK 0x4 x kk))

theorem seReg (x : Nibble) (y : Nibble) : Statement (.seReg x y) :=
  of_row 7 (OpcodeRow.selects_top_low 0x5 x y 0x0 rfl rfl) (congrArg₂ Instr.seReg (fieldX_wordOfNibbles 0x5 x y 0x0) (fieldY_wordOfNibbles 0x5 x y 0x0))

theorem ldImm (x : Nibble) (kk : Byte) : Statement (.ldImm x kk) :=
  of_row 8 (of_xkk 0x6 x kk rfl rfl) (congrArg₂ Instr.ldImm (fieldX_wordXKK 0x6 x kk) (fieldKK_wordXKK 0x6 x kk))

theorem addImm (x : Nibble) (kk : Byte) : Statement (.addImm x kk) :=
  of_row 9 (of_xkk 0x7 x kk rfl rfl) (congrArg₂ Instr.addImm (fieldX_wordXKK 0x7 x kk) (fieldKK_wordXKK 0x7 x kk))

theorem ldReg (x : Nibble) (y : Nibble) : Statement (.ldReg x y) :=
  of_row 10 (OpcodeRow.selects_top_low 0x8 x y 0x0 rfl rfl) (congrArg₂ Instr.ldReg (fieldX_wordOfNibbles 0x8 x y 0x0) (fieldY_wordOfNibbles 0x8 x y 0x0))

theorem orReg (x : Nibble) (y : Nibble) : Statement (.orReg x y) :=
  of_row 11 (OpcodeRow.selects_top_low 0x8 x y 0x1 rfl rfl) (congrArg₂ Instr.orReg (fieldX_wordOfNibbles 0x8 x y 0x1) (fieldY_wordOfNibbles 0x8 x y 0x1))

theorem andReg (x : Nibble) (y : Nibble) : Statement (.andReg x y) :=
  of_row 12 (OpcodeRow.selects_top_low 0x8 x y 0x2 rfl rfl) (congrArg₂ Instr.andReg (fieldX_wordOfNibbles 0x8 x y 0x2) (fieldY_wordOfNibbles 0x8 x y 0x2))

theorem xorReg (x : Nibble) (y : Nibble) : Statement (.xorReg x y) :=
  of_row 13 (OpcodeRow.selects_top_low 0x8 x y 0x3 rfl rfl) (congrArg₂ Instr.xorReg (fieldX_wordOfNibbles 0x8 x y 0x3) (fieldY_wordOfNibbles 0x8 x y 0x3))

theorem addReg (x : Nibble) (y : Nibble) : Statement (.addReg x y) :=
  of_row 14 (OpcodeRow.selects_top_low 0x8 x y 0x4 rfl rfl) (congrArg₂ Instr.addReg (fieldX_wordOfNibbles 0x8 x y 0x4) (fieldY_wordOfNibbles 0x8 x y 0x4))

theorem sub (x : Nibble) (y : Nibble) : Statement (.sub x y) :=
  of_row 15 (OpcodeRow.selects_top_low 0x8 x y 0x5 rfl rfl) (congrArg₂ Instr.sub (fieldX_wordOfNibbles 0x8 x y 0x5) (fieldY_wordOfNibbles 0x8 x y 0x5))

theorem shr (x : Nibble) (y : Nibble) : Statement (.shr x y) :=
  of_row 16 (OpcodeRow.selects_top_low 0x8 x y 0x6 rfl rfl) (congrArg₂ Instr.shr (fieldX_wordOfNibbles 0x8 x y 0x6) (fieldY_wordOfNibbles 0x8 x y 0x6))

theorem subn (x : Nibble) (y : Nibble) : Statement (.subn x y) :=
  of_row 17 (OpcodeRow.selects_top_low 0x8 x y 0x7 rfl rfl) (congrArg₂ Instr.subn (fieldX_wordOfNibbles 0x8 x y 0x7) (fieldY_wordOfNibbles 0x8 x y 0x7))

theorem shl (x : Nibble) (y : Nibble) : Statement (.shl x y) :=
  of_row 18 (OpcodeRow.selects_top_low 0x8 x y 0xE rfl rfl) (congrArg₂ Instr.shl (fieldX_wordOfNibbles 0x8 x y 0xE) (fieldY_wordOfNibbles 0x8 x y 0xE))

theorem sneReg (x : Nibble) (y : Nibble) : Statement (.sneReg x y) :=
  of_row 19 (OpcodeRow.selects_top_low 0x9 x y 0x0 rfl rfl) (congrArg₂ Instr.sneReg (fieldX_wordOfNibbles 0x9 x y 0x0) (fieldY_wordOfNibbles 0x9 x y 0x0))

theorem ldI (nnn : Addr) : Statement (.ldI nnn) :=
  of_row 20 (of_nnn 0xA nnn rfl rfl) (congrArg Instr.ldI (fieldNNN_wordNNN 0xA nnn))

theorem jpV0 (nnn : Addr) : Statement (.jpV0 nnn) :=
  of_row 21 (of_nnn 0xB nnn rfl rfl) (congrArg Instr.jpV0 (fieldNNN_wordNNN 0xB nnn))

theorem rnd (x : Nibble) (kk : Byte) : Statement (.rnd x kk) :=
  of_row 22 (of_xkk 0xC x kk rfl rfl) (congrArg₂ Instr.rnd (fieldX_wordXKK 0xC x kk) (fieldKK_wordXKK 0xC x kk))

theorem drw (x : Nibble) (y : Nibble) (n : Nibble) : Statement (.drw x y n) :=
  of_row 23 (OpcodeRow.selects_top 0xD x y n rfl rfl) (by
    change Instr.drw (fieldX (wordOfNibbles 0xD x y n)) (fieldY (wordOfNibbles 0xD x y n)) (fieldN (wordOfNibbles 0xD x y n)) = _
    rw [fieldX_wordOfNibbles, fieldY_wordOfNibbles, fieldN_wordOfNibbles])

theorem skp (x : Nibble) : Statement (.skp x) :=
  of_row 24 (of_x 0xE x 0x9E rfl rfl) (congrArg Instr.skp (fieldX_wordXKK 0xE x 0x9E))

theorem sknp (x : Nibble) : Statement (.sknp x) :=
  of_row 25 (of_x 0xE x 0xA1 rfl rfl) (congrArg Instr.sknp (fieldX_wordXKK 0xE x 0xA1))

theorem ldVxDt (x : Nibble) : Statement (.ldVxDt x) :=
  of_row 26 (of_x 0xF x 0x07 rfl rfl) (congrArg Instr.ldVxDt (fieldX_wordXKK 0xF x 0x07))

theorem ldVxK (x : Nibble) : Statement (.ldVxK x) :=
  of_row 27 (of_x 0xF x 0x0A rfl rfl) (congrArg Instr.ldVxK (fieldX_wordXKK 0xF x 0x0A))

theorem ldDtVx (x : Nibble) : Statement (.ldDtVx x) :=
  of_row 28 (of_x 0xF x 0x15 rfl rfl) (congrArg Instr.ldDtVx (fieldX_wordXKK 0xF x 0x15))

theorem ldStVx (x : Nibble) : Statement (.ldStVx x) :=
  of_row 29 (of_x 0xF x 0x18 rfl rfl) (congrArg Instr.ldStVx (fieldX_wordXKK 0xF x 0x18))

theorem addI (x : Nibble) : Statement (.addI x) :=
  of_row 30 (of_x 0xF x 0x1E rfl rfl) (congrArg Instr.addI (fieldX_wordXKK 0xF x 0x1E))

theorem ldF (x : Nibble) : Statement (.ldF x) :=
  of_row 31 (of_x 0xF x 0x29 rfl rfl) (congrArg Instr.ldF (fieldX_wordXKK 0xF x 0x29))

theorem ldB (x : Nibble) : Statement (.ldB x) :=
  of_row 32 (of_x 0xF x 0x33 rfl rfl) (congrArg Instr.ldB (fieldX_wordXKK 0xF x 0x33))

theorem stRegs (x : Nibble) : Statement (.stRegs x) :=
  of_row 33 (of_x 0xF x 0x55 rfl rfl) (congrArg Instr.stRegs (fieldX_wordXKK 0xF x 0x55))

theorem ldRegs (x : Nibble) : Statement (.ldRegs x) :=
  of_row 34 (of_x 0xF x 0x65 rfl rfl) (congrArg Instr.ldRegs (fieldX_wordXKK 0xF x 0x65))

end Sys2Proof.Laws.SelectsItsRow
end

