-- ==== Sys2Proof/Laws/Registers.lean ====
section
/-! SUPPORT. Registers, keys, stack slots: reads after writes; and the two register transfer loops of
spec/42_index_memory.md R124 and R125, each said once. -/

namespace Sys2Proof.Machine

theorem nibble_ne_iff {x r : Nibble} : x.toNat = r.toNat ↔ r = x :=
  ⟨fun h => (BitVec.eq_of_toNat_eq h).symm, fun h => h ▸ rfl⟩

/-- `V[r]` after `V[x] <- b` (R11: no register is hardwired). -/
theorem State.getV_setV (s : State) (x r : Nibble) (b : Byte) :
    (s.setV x b).getV r = if r = x then b else s.getV r := by
  unfold State.getV State.setV
  simp only [Vector.getElem_set, nibble_ne_iff]

@[simp] theorem State.getV_setV_same (s : State) (x : Nibble) (b : Byte) : (s.setV x b).getV x = b := by
  rw [State.getV_setV, if_pos rfl]

theorem State.getV_setV_other (s : State) {x r : Nibble} (b : Byte) (h : r ≠ x) :
    (s.setV x b).getV r = s.getV r := by
  rw [State.getV_setV, if_neg h]

/-- `V[r]` after the VF-last write of a result and a flag (R69). -/
theorem State.getV_setResultThenFlag (s : State) (x r : Nibble) (b f : Byte) :
    (s.setResultThenFlag x b f).getV r = if r = vf then f else if r = x then b else s.getV r := by
  unfold State.setResultThenFlag
  rw [State.getV_setV, State.getV_setV]

/-- `Key[j]` after `Key[k] <- b` (R19). -/
theorem State.key_setKey (s : State) (k j : Nibble) (b : Bool) :
    (s.setKey k b).key j = if j = k then b else s.key j := by
  unfold State.key State.setKey
  simp only [Vector.getElem_set, nibble_ne_iff]

/-- The slots after a push (R83). -/
theorem State.push_slot (s : State) (a : Word) (h : s.sp.val < 16) (k : Fin 16) :
    (s.push a h).stack[k] = if k.val = s.sp.val then a else s.stack[k] := by
  simp only [State.push_stack, Fin.getElem_fin, Vector.getElem_set]
  by_cases hk : s.sp.val = k.val
  · rw [if_pos hk, if_pos hk.symm]
  · rw [if_neg hk, if_neg (Ne.symm hk)]

theorem ofNat_nibble_inj {j k : Nat} (hj : j < 16) (hk : k < 16) :
    BitVec.ofNat 4 j = BitVec.ofNat 4 k ↔ j = k := by
  constructor
  · intro h
    have := congrArg BitVec.toNat h
    simp only [BitVec.toNat_ofNat] at this
    omega
  · intro h
    rw [h]

/-! ## storing registers (R124) -/

/-- Storing registers changes memory and nothing else. -/
theorem State.storeRegs_eq (s : State) (n : Nat) :
    s.storeRegs n = { s with mem := (s.storeRegs n).mem } := by
  induction n with
  | zero => rfl
  | succ k ih => rw [State.storeRegs, ih]; rfl

@[simp] theorem State.storeRegs_nextPc (s : State) (n : Nat) : (s.storeRegs n).nextPc = s.nextPc := by
  rw [State.storeRegs_eq]
  rfl

theorem State.storeRegs_wf (s : State) (n : Nat) (h : Memory.wf s.mem = true) :
    Memory.wf (s.storeRegs n).mem = true := by
  induction n with
  | zero => exact h
  | succ k ih => exact State.memWrite_wf _ _ _ ih

/-- Outside the stored bytes memory reads as before. -/
theorem State.storeRegs_memRead_other (s : State) (n a : Nat)
    (h : ∀ k, k < n → maskAddr a ≠ maskAddr (s.addrI k)) : (s.storeRegs n).memRead a = s.memRead a := by
  induction n with
  | zero => rfl
  | succ k ih =>
    rw [State.storeRegs, State.memRead_memWrite_mask, if_neg (h k (by omega))]
    exact ih fun j hj => h j (by omega)

/-- Each stored byte is the register's. -/
theorem State.storeRegs_memRead (s : State) (n k : Nat) (hk : k < n) (hn : n ≤ 16) :
    (s.storeRegs n).memRead (s.addrI k) = s.getV (BitVec.ofNat 4 k) := by
  induction n with
  | zero => omega
  | succ j ih =>
    rw [State.storeRegs, State.memRead_memWrite_mask]
    by_cases h : k = j
    · rw [if_pos (by rw [h]), h]
    · rw [if_neg (s.maskAddr_addrI_ne (by omega) (by omega) h)]
      exact ih (by omega) (by omega)

/-! ## loading registers (R125) -/

/-- Loading registers changes V and nothing else. -/
theorem State.loadRegs_eq (s : State) (n : Nat) :
    s.loadRegs n = { s with v := (s.loadRegs n).v } := by
  induction n with
  | zero => rfl
  | succ k ih => rw [State.loadRegs, ih]; rfl

@[simp] theorem State.loadRegs_nextPc (s : State) (n : Nat) : (s.loadRegs n).nextPc = s.nextPc := by
  rw [State.loadRegs_eq]
  rfl

/-- Registers below the count have their bytes, the others keep their values. -/
theorem State.loadRegs_getV (s : State) (n : Nat) (hn : n ≤ 16) (r : Nibble) :
    (s.loadRegs n).getV r = if r.toNat < n then s.memRead (s.addrI r.toNat) else s.getV r := by
  induction n with
  | zero => simp [State.loadRegs]
  | succ k ih =>
    have hr : r = BitVec.ofNat 4 k ↔ r.toNat = k := by
      rw [← nibble_ne_iff, BitVec.toNat_ofNat]
      constructor <;> intro h <;> omega
    rw [State.loadRegs, State.getV_setV, ih (by omega)]
    by_cases h : r.toNat = k
    · rw [if_pos (hr.mpr h), if_pos (by omega), h]
    · rw [if_neg (fun h' => h (hr.mp h'))]
      by_cases h2 : r.toNat < k
      · rw [if_pos h2, if_pos (by omega)]
      · rw [if_neg h2, if_neg (by omega)]

end Sys2Proof.Machine
end

