-- ==== Sys2Proof/Laws/Step.lean ====
section
/-! SUPPORT. What a cycle can be, said once (spec/30_encoding.md R67), and runs of cycles: `Host.Core.run`, `runCycles`
and TICK (spec/60_exceptions.md R182). -/

namespace Sys2Proof.Machine

/-! ## One cycle -/

/-- A halted cycle (R172). -/
theorem cycle_of_halted {s : State} (h : Halted s) : cycle s = .next s := by
  obtain ⟨f, hf⟩ := Option.ne_none_iff_exists'.mp h
  unfold cycle
  rw [hf]

/-- A waiting cycle (R153). -/
theorem cycle_of_waiting {s : State} {x : Nibble} (hf : s.fault = none) (hw : s.wait = some x) :
    cycle s = .next (s.waitCycle x) := by
  unfold cycle
  rw [hf, hw]

/-- A running cycle. -/
theorem cycle_of_running {s : State} (h : Running s) : cycle s = s.runInstruction := by
  unfold cycle
  rw [h.1, h.2]

/-- A running cycle whose word decodes. -/
theorem cycle_of_decode {s : State} {i : Instr} (h : Running s) (hd : decodeWord s.fetchWord = .ok i) :
    cycle s = exec i s := by
  rw [cycle_of_running h, State.runInstruction, hd]

/-- A running cycle whose word does not decode (R175). -/
theorem cycle_of_reject {s : State} {e : DecodeReject} (h : Running s)
    (hd : decodeWord s.fetchWord = .error e) : cycle s = .next (s.raise .unknownOpcode) := by
  rw [cycle_of_running h, State.runInstruction, hd]

/-- Everything a cycle can be: halted, waiting, an instruction, an unknown opcode. -/
theorem cycle_cases (s : State) :
    (Halted s ∧ cycle s = .next s) ∨
    (∃ x, s.fault = none ∧ s.wait = some x ∧ cycle s = .next (s.waitCycle x)) ∨
    (Running s ∧ ∃ i, decodeWord s.fetchWord = .ok i ∧ cycle s = exec i s) ∨
    (Running s ∧ ∃ e, decodeWord s.fetchWord = .error e ∧ cycle s = .next (s.raise .unknownOpcode)) := by
  cases hf : s.fault with
  | some f =>
    have h : Halted s := by simp [Halted, hf]
    exact .inl ⟨h, cycle_of_halted h⟩
  | none =>
    cases hw : s.wait with
    | some x => exact .inr (.inl ⟨x, rfl, rfl, cycle_of_waiting hf hw⟩)
    | none =>
      have h : Running s := ⟨hf, hw⟩
      cases hd : decodeWord s.fetchWord with
      | ok i => exact .inr (.inr (.inl ⟨h, i, rfl, cycle_of_decode h hd⟩))
      | error e => exact .inr (.inr (.inr ⟨h, e, rfl, cycle_of_reject h hd⟩))

/-- A waiting cycle with no event captured. -/
theorem State.waitCycle_none {s : State} (x : Nibble) (h : s.keyEv = none) : s.waitCycle x = s := by
  unfold State.waitCycle
  rw [h]

/-- A waiting cycle with an event captured. -/
theorem State.waitCycle_some {s : State} (x : Nibble) {k : Nibble} (h : s.keyEv = some k) :
    s.waitCycle x = s.completeWait x k := by
  unfold State.waitCycle
  rw [h]

/-- An idling cycle (R153). -/
theorem cycle_of_idle {s : State} (h : IdleOnKey s) : cycle s = .next s := by
  obtain ⟨hf, hw, hk⟩ := h
  obtain ⟨x, hx⟩ := Option.ne_none_iff_exists'.mp hw
  rw [cycle_of_waiting hf hx, State.waitCycle_none x hk]

/-- No meaning stops the machine. -/
theorem exec_next (i : Instr) (s : State) : ∃ t, exec i s = .next t := by
  cases i <;> simp only [exec] <;> first
    | exact ⟨_, rfl⟩
    | (unfold execRet; split_ifs <;> exact ⟨_, rfl⟩)
    | (unfold execCall; split_ifs <;> exact ⟨_, rfl⟩)

/-- No cycle stops the machine. -/
theorem cycle_next (s : State) : ∃ t, cycle s = .next t := by
  rcases cycle_cases s with ⟨_, h⟩ | ⟨_, _, _, h⟩ | ⟨_, i, _, h⟩ | ⟨_, _, _, h⟩
  · exact ⟨_, h⟩
  · exact ⟨_, h⟩
  · obtain ⟨t, ht⟩ := exec_next i s
    exact ⟨t, h.trans ht⟩
  · exact ⟨_, h⟩

/-! ## The host's run -/

/-- One step at the front of a run. -/
theorem run_succ {s t : State} (h : step s = .next t) (n : Nat) :
    Host.Core.run Sys2Proof.core (n + 1) s = Host.Core.run Sys2Proof.core n t := by
  refine (Host.Core.run.eq_2 Sys2Proof.core s n).trans ?_
  have h' : Sys2Proof.core.step s = .next t := h
  split <;> rename_i he <;> rw [h'] at he <;> cases he
  rfl

/-- Runs one after the other. -/
theorem run_add {s t : State} (n m : Nat) (h : Host.Core.run Sys2Proof.core n s = .next t) :
    Host.Core.run Sys2Proof.core (n + m) s = Host.Core.run Sys2Proof.core m t := by
  induction n generalizing s with
  | zero =>
    cases h
    rw [Nat.zero_add]
  | succ n ih =>
    obtain ⟨u, hu⟩ := cycle_next s
    have e := run_succ hu
    rw [show n + 1 + m = (n + m) + 1 by omega]
    exact (e (n + m)).trans (ih ((e n).symm.trans h))

/-- A run of steps that change nothing. -/
theorem run_of_fixed {s : State} (h : step s = .next s) (n : Nat) :
    Host.Core.run Sys2Proof.core n s = .next s := by
  induction n with
  | zero => rfl
  | succ n ih => exact (run_succ h n).trans ih

/-! ## The cycles of a TICK -/

/-- The early end of a faulted tick cannot be told from running on (R172, R182). -/
theorem runCycles_eq_run (n : Nat) (s : State) : runCycles n s = Host.Core.run Sys2Proof.core n s := by
  induction n generalizing s with
  | zero => rfl
  | succ n ih =>
    obtain ⟨t, ht⟩ := cycle_next s
    refine Eq.trans ?_ (run_succ ht n).symm
    rw [runCycles, ht]
    dsimp only
    split_ifs with h
    · exact (run_of_fixed (cycle_of_halted (Option.isSome_iff_ne_none.mp h)) n).symm
    · exact ih t

/-- The cycles of a TICK answer a next state. -/
theorem runCycles_next (n : Nat) (s : State) : ∃ t, runCycles n s = .next t := by
  induction n generalizing s with
  | zero => exact ⟨_, rfl⟩
  | succ n ih =>
    obtain ⟨t, ht⟩ := cycle_next s
    rw [runCycles, ht]
    dsimp only
    split_ifs
    · exact ⟨_, rfl⟩
    · exact ih t

/-- What every cycle keeps, the cycles of a TICK keep. -/
theorem runCycles_keeps {P : State → Prop} (hc : ∀ s t, P s → cycle s = .next t → P t) (n : Nat) (s t : State)
    (hs : P s) (h : runCycles n s = .next t) : P t := by
  induction n generalizing s with
  | zero =>
    cases h
    exact hs
  | succ n ih =>
    obtain ⟨u, hu⟩ := cycle_next s
    rw [runCycles, hu] at h
    dsimp only at h
    split_ifs at h
    · cases h
      exact hc _ _ hs hu
    · exact ih u (hc _ _ hs hu) h

/-- What every cycle and the countdown keep, a TICK keeps. -/
theorem tickOf_keeps {P : State → Prop} (hc : ∀ s t, P s → cycle s = .next t → P t)
    (ht : ∀ s, P s → P s.countTimers) (n : Nat) (s t : State) (hs : P s) (h : tickOf n s = .next t) : P t := by
  unfold tickOf at h
  split_ifs at h
  · cases h
    exact hs
  · obtain ⟨u, hu⟩ := runCycles_next n s
    have hP := runCycles_keeps hc n s u hs hu
    rw [hu] at h
    dsimp only at h
    split_ifs at h <;> cases h
    · exact hP
    · exact ht _ hP

/-- The countdown of a timer is a truncated subtraction (R181; conflict C9). -/
theorem countDown_eq (r : Byte) : countDown r = BitVec.ofNat 8 (r.toNat - 1) := by
  have := r.isLt
  unfold countDown
  split_ifs with h
  · rw [h]
    rfl
  · have hr : r.toNat ≠ 0 := fun h' => h (BitVec.eq_of_toNat_eq h')
    apply BitVec.eq_of_toNat_eq
    rw [BitVec.toNat_sub, BitVec.toNat_ofNat]
    change (2 ^ 8 - 1 + r.toNat) % 2 ^ 8 = _
    omega

end Sys2Proof.Machine
end

