-- ==== Sys2Proof/Tests/Slice0.lean ====
section
/-! SUPPORT. The model's own tests. Expected values are the spec's: the vectors of spec/95_test_vectors.md (named in
each comment) or a hand calculation from the rule named. The last part has one witness for every obligation
with hypotheses: a concrete state and operands that meet them. -/

namespace Sys2Proof.Tests

open Sys2Proof.Machine

/-! ## WellFormed: the one check, and what it refuses -/

/-- R64, R66: `00E0` is CLS, never SYS. -/
theorem test_wf_sys_0E0_refused : (Instr.sys 0x0E0).wellFormed = false := by decide

/-- R64, R66: `00EE` is RET, never SYS. -/
theorem test_wf_sys_0EE_refused : (Instr.sys 0x0EE).wellFormed = false := by decide

/-- The neighbours are SYS. -/
theorem test_wf_sys_neighbours : (Instr.sys 0x0E1).wellFormed = true ∧ (Instr.sys 0x0EF).wellFormed = true := by decide

/-! ## Decoding: one word for every constructor, bit by bit from R62 and R64 -/

/-- Top nibbles 0 to 7. In bits: `0000 0000 1110 0000`, `0000 0000 1110 1110`, then t and the operand fields. -/
theorem test_decode_low :
    decodeWord 0b0000000011100000 = .ok .cls ∧
    decodeWord 0b0000000011101110 = .ok .ret ∧
    decodeWord 0b0000000100100011 = .ok (.sys 0x123) ∧
    decodeWord 0b0001101010111100 = .ok (.jp 0xABC) ∧
    decodeWord 0b0010001101000101 = .ok (.call 0x345) ∧
    decodeWord 0b0011101001000010 = .ok (.seImm 0xA 0x42) ∧
    decodeWord 0b0100101001000010 = .ok (.sneImm 0xA 0x42) ∧
    decodeWord 0b0101000100100000 = .ok (.seReg 0x1 0x2) ∧
    decodeWord 0b0110101001111111 = .ok (.ldImm 0xA 0x7F) ∧
    decodeWord 0b0111000100000010 = .ok (.addImm 0x1 0x02) := by decide

/-- Top nibble 8. -/
theorem test_decode_alu :
    decodeWord 0b1000000100100000 = .ok (.ldReg 0x1 0x2) ∧
    decodeWord 0b1000000100100001 = .ok (.orReg 0x1 0x2) ∧
    decodeWord 0b1000000100100010 = .ok (.andReg 0x1 0x2) ∧
    decodeWord 0b1000000100100011 = .ok (.xorReg 0x1 0x2) ∧
    decodeWord 0b1000000100100100 = .ok (.addReg 0x1 0x2) ∧
    decodeWord 0b1000000100100101 = .ok (.sub 0x1 0x2) ∧
    decodeWord 0b1000000100100110 = .ok (.shr 0x1 0x2) ∧
    decodeWord 0b1000000100100111 = .ok (.subn 0x1 0x2) ∧
    decodeWord 0b1000000100101110 = .ok (.shl 0x1 0x2) := by decide

/-- Top nibbles 9 to E. -/
theorem test_decode_high :
    decodeWord 0b1001000100100000 = .ok (.sneReg 0x1 0x2) ∧
    decodeWord 0b1010111111111110 = .ok (.ldI 0xFFE) ∧
    decodeWord 0b1011001100000001 = .ok (.jpV0 0x301) ∧
    decodeWord 0b1100001100001111 = .ok (.rnd 0x3 0x0F) ∧
    decodeWord 0b1101000100100101 = .ok (.drw 0x1 0x2 0x5) ∧
    decodeWord 0b1110001110011110 = .ok (.skp 0x3) ∧
    decodeWord 0b1110001110100001 = .ok (.sknp 0x3) := by decide

/-- Top nibble F. -/
theorem test_decode_f :
    decodeWord 0b1111001100000111 = .ok (.ldVxDt 0x3) ∧
    decodeWord 0b1111001100001010 = .ok (.ldVxK 0x3) ∧
    decodeWord 0b1111001100010101 = .ok (.ldDtVx 0x3) ∧
    decodeWord 0b1111001100011000 = .ok (.ldStVx 0x3) ∧
    decodeWord 0b1111001100011110 = .ok (.addI 0x3) ∧
    decodeWord 0b1111001100101001 = .ok (.ldF 0x3) ∧
    decodeWord 0b1111001100110011 = .ok (.ldB 0x3) ∧
    decodeWord 0b1111001101010101 = .ok (.stRegs 0x3) ∧
    decodeWord 0b1111001101100101 = .ok (.ldRegs 0x3) := by decide

/-- V-FLT-1: words at the edges of the five illegal sets of R65. -/
theorem test_decode_illegal :
    ([0x5001, 0x500F, 0x8008, 0x800D, 0x800F, 0x9001, 0xE000, 0xE09F, 0xE1A0, 0xF000, 0xF1FF, 0xF066,
      0xFFFF, 0xF090] : List Word).all (fun op => decodeWord op == .error (.unknownOpcode op)) = true := by decide

/-- The table's numbering: a 16-bit row whole, an 8-bit reading with the high bits zero, and an illegal word. -/
theorem test_decodeTableWord :
    decodeTableWord 16 0x8014 = some (.addReg 0 1) ∧ decodeTableWord 8 0x80E0 = some .cls ∧
    decodeTableWord 16 0xFFFF = none := by decide

/-! ## Helpers for the step tests -/

/-- The reset state with the word `op` at PC. -/
def at0 (op : Word) : State := State.reset.placeWord op

/-- Registers set. -/
def regs (s : State) (rs : List (Nibble × Byte)) : State := rs.foldl (fun t r => t.setV r.1 r.2) s

/-- Cells lit. -/
def lit (s : State) (cs : List (Nat × Nat)) : State :=
  { s with fb := cs.foldl (fun fb c => Framebuffer.setCell fb c.1 c.2 true) s.fb }

/-- What the next state of a step shows. -/
def shows (s : State) (p : State → Bool) : Bool :=
  match step s with
  | .next t => p t
  | .fault _ => false
  | .refused _ => false

/-- A register, and PC. -/
def vpc (t : State) (x : Nibble) : Byte × Word := (t.getV x, t.pc)

/-- Whether exactly the listed cells of the row are lit. -/
def rowIs (t : State) (py : Nat) (cs : List Nat) : Bool :=
  (List.range 64).all fun px => Framebuffer.cell t.fb px py == cs.contains px

/-! ## Flow -/

/-- V-FLW-1. -/
theorem test_jp : shows (at0 0x1ABC) (·.pc == 0xABC) = true := by decide

/-- V-FLW-3 and V-FLW-6: the last slot; NEXT wraps at the top of memory. -/
theorem test_call :
    (shows { at0 0x2345 with sp := 15 }
        (fun t => t.stack[15] == 0x202 && t.sp == 16 && t.pc == 0x345 && t.fault == none) &&
      shows ({ State.reset with pc := 0xFFE }.placeWord 0x2300)
        (fun t => t.stack[0] == 0 && t.sp == 1 && t.pc == 0x300)) = true := by decide

/-- V-FLW-4. -/
theorem test_call_overflow :
    shows { at0 0x2345 with sp := 16 }
      (fun t => t == { at0 0x2345 with sp := 16, fault := some ⟨.stackOverflow, 0x200⟩ }) = true := by decide

/-- S1 (conflict C1): the return goes to the pushed address, with no further advance. -/
theorem test_ret :
    shows { at0 0x00EE with sp := 1, stack := State.reset.stack.set 0 0x302 }
      (fun t => t.pc == 0x302 && t.sp == 0 && t.stack[0] == 0x302) = true := by decide

/-- V-FLW-5. -/
theorem test_ret_underflow :
    shows (at0 0x00EE) (fun t => t == { at0 0x00EE with fault := some ⟨.stackUnderflow, 0x200⟩ }) = true := by decide

/-- V-FLW-22: `00E1` is not CLS. -/
theorem test_sys : shows (at0 0x00E1) (fun t => t == { at0 0x00E1 with pc := 0x202 }) = true := by decide

/-- V-FLW-7. -/
theorem test_jpV0_wraps : shows (regs (at0 0xBFFF) [(0, 0xFF)]) (·.pc == 0x0FE) = true := by decide

/-- V-FLW-9, V-FLW-10. -/
theorem test_seImm :
    (shows (regs (at0 0x3A42) [(0xA, 0x42)]) (·.pc == 0x204) &&
      shows (regs (at0 0x3A42) [(0xA, 0x43)]) (·.pc == 0x202)) = true := by decide

/-- V-FLW-19: SKIP wraps. -/
theorem test_skip_wraps : shows ({ State.reset with pc := 0xFFE }.placeWord 0x3000) (·.pc == 0x002) = true := by decide

/-- V-FLW-11, V-FLW-12. -/
theorem test_sneImm :
    (shows (regs (at0 0x4A42) [(0xA, 0x42)]) (·.pc == 0x202) &&
      shows (regs (at0 0x4A42) [(0xA, 0x43)]) (·.pc == 0x204)) = true := by decide

/-- V-FLW-13, V-FLW-14. -/
theorem test_seReg :
    (shows (regs (at0 0x5120) [(1, 7), (2, 7)]) (·.pc == 0x204) &&
      shows (regs (at0 0x5120) [(1, 7), (2, 8)]) (·.pc == 0x202)) = true := by decide

/-- V-FLW-16, V-FLW-17. -/
theorem test_sneReg :
    (shows (regs (at0 0x9120) [(1, 7), (2, 7)]) (·.pc == 0x202) &&
      shows (regs (at0 0x9120) [(1, 7), (2, 8)]) (·.pc == 0x204)) = true := by decide

/-- V-FLW-23: the fetch of the second byte wraps to address 0. -/
theorem test_fetch_wraps :
    shows ((({ State.reset with pc := 0xFFF } : State).memWrite 0xFFF 0x12).memWrite 0x000 0x34)
      (·.pc == 0x234) = true := by decide

/-! ## ALU -/

/-- V-ALU-1. -/
theorem test_ldImm : shows (at0 0x6A7F) (fun t => vpc t 0xA == (0x7F, 0x202)) = true := by decide

/-- V-ALU-2: the sum wraps and VF stays. -/
theorem test_addImm_wraps :
    shows (regs (at0 0x7102) [(1, 0xFF), (15, 0x55)]) (fun t => t.getV 1 == 1 && t.getV 15 == 0x55) = true := by decide

/-- V-ALU-3: VF as an ordinary register. -/
theorem test_addImm_vf : shows (regs (at0 0x7F03) [(15, 0xFE)]) (fun t => t.getV 15 == 1) = true := by decide

/-- V-ALU-4. -/
theorem test_ldReg :
    shows (regs (at0 0x8010) [(0, 0xCC), (1, 0xAA)]) (fun t => t.getV 0 == 0xAA && t.getV 1 == 0xAA) = true := by decide

/-- V-ALU-4. -/
theorem test_or :
    shows (regs (at0 0x8011) [(0, 0xCC), (1, 0xAA), (15, 9)])
      (fun t => t.getV 0 == 0xEE && t.getV 15 == 9) = true := by decide

/-- V-ALU-4. -/
theorem test_and :
    shows (regs (at0 0x8012) [(0, 0xCC), (1, 0xAA), (15, 9)])
      (fun t => t.getV 0 == 0x88 && t.getV 15 == 9) = true := by decide

/-- V-ALU-4. -/
theorem test_xor :
    shows (regs (at0 0x8013) [(0, 0xCC), (1, 0xAA), (15, 9)])
      (fun t => t.getV 0 == 0x66 && t.getV 15 == 9) = true := by decide

/-- S2. -/
theorem test_add_carry :
    shows (regs (at0 0x8014) [(0, 0xFF), (1, 1)])
      (fun t => t.getV 0 == 0 && t.getV 15 == 1 && t.pc == 0x202) = true := by decide

/-- S4 (conflict C7): with x = F the flag overwrites the sum, also a flag of 0. -/
theorem test_add_into_vf :
    shows (regs (at0 0x8F04) [(0, 0xFF)]) (fun t => t.getV 15 == 0 && t.getV 0 == 0xFF) = true := by decide

/-- V-ALU-12: equal operands do not borrow. -/
theorem test_sub_equal :
    shows (regs (at0 0x8015) [(0, 5), (1, 5)]) (fun t => t.getV 0 == 0 && t.getV 15 == 1) = true := by decide

/-- V-ALU-11. -/
theorem test_sub_borrow :
    shows (regs (at0 0x8015) [(0, 3), (1, 5), (15, 1)])
      (fun t => t.getV 0 == 0xFE && t.getV 15 == 0) = true := by decide

/-- V-ALU-16: Vy is ignored. -/
theorem test_shr :
    shows (regs (at0 0x8016) [(0, 5), (1, 0xFF)])
      (fun t => t.getV 0 == 2 && t.getV 15 == 1 && t.getV 1 == 0xFF) = true := by decide

/-- V-ALU-18: the lost bit overwrites the shifted value. -/
theorem test_shr_vf : shows (regs (at0 0x8F06) [(15, 2)]) (fun t => t.getV 15 == 0) = true := by decide

/-- V-ALU-20. -/
theorem test_subn :
    shows (regs (at0 0x8017) [(0, 3), (1, 5)]) (fun t => t.getV 0 == 2 && t.getV 15 == 1) = true := by decide

/-- V-ALU-21. -/
theorem test_subn_borrow :
    shows (regs (at0 0x8017) [(0, 5), (1, 3)]) (fun t => t.getV 0 == 0xFE && t.getV 15 == 0) = true := by decide

/-- V-ALU-23. -/
theorem test_shl :
    shows (regs (at0 0x801E) [(0, 0x81), (1, 0xFF)])
      (fun t => t.getV 0 == 2 && t.getV 15 == 1 && t.getV 1 == 0xFF) = true := by decide

/-- V-ALU-25. -/
theorem test_shl_vf : shows (regs (at0 0x8F0E) [(15, 0x40)]) (fun t => t.getV 15 == 0) = true := by decide

/-- V-ALU-28: for every random byte; one byte is drawn all the same. -/
theorem test_rnd_masked :
    ∃ t, step (regs (at0 0xC300) [(3, 0x99)]) = .next t ∧ t.getV 3 = 0 ∧ t.rng = ⟨0, 1⟩ ∧ t.pc = 0x202 :=
  ⟨_, rfl, BitVec.and_zero, rfl, rfl⟩

/-! ## Index register and memory -/

/-- V-IDX-1. -/
theorem test_ldI : shows (at0 0xAFFF) (·.i == 0x0FFF) = true := by decide

/-- V-IDX-2: I wraps at 16 bits and VF stays. -/
theorem test_addI_wraps :
    shows (regs { at0 0xF01E with i := 0xFFFF } [(0, 2), (15, 0x33)])
      (fun t => t.i == 1 && t.getV 15 == 0x33) = true := by decide

/-- V-IDX-3: I is not reduced to 12 bits. -/
theorem test_addI_past_4095 :
    shows (regs { at0 0xF01E with i := 0x0FFF } [(0, 1)]) (·.i == 0x1000) = true := by decide

/-- V-IDX-4. -/
theorem test_ldF : shows (regs (at0 0xF029) [(0, 0x1A)]) (·.i == 0x0082) = true := by decide

/-- S6. -/
theorem test_ldB :
    shows (regs { at0 0xF033 with i := 0x300 } [(0, 123)])
      (fun t => t.memRead 0x300 == 1 && t.memRead 0x301 == 2 && t.memRead 0x302 == 3 && t.i == 0x300) = true := by
  decide

/-- V-IDX-8: the addresses wrap. -/
theorem test_ldB_wraps :
    shows (regs { at0 0xF033 with i := 0x0FFF } [(0, 198)])
      (fun t => t.memRead 0xFFF == 1 && t.memRead 0x000 == 9 && t.memRead 0x001 == 8) = true := by decide

/-- V-IDX-10 and V-IDX-11: x = 0 stores one register; the addresses wrap. -/
theorem test_stRegs :
    (shows (regs { at0 0xF055 with i := 0x300 } [(0, 0x11), (1, 0x22)])
        (fun t => t.memRead 0x300 == 0x11 && t.memRead 0x301 == 0) &&
      shows (regs { at0 0xF355 with i := 0x0FFE } [(0, 0xA0), (1, 0xA1), (2, 0xA2), (3, 0xA3), (4, 0xA4)])
        (fun t => t.memRead 0xFFE == 0xA0 && t.memRead 0xFFF == 0xA1 && t.memRead 0 == 0xA2 &&
          t.memRead 1 == 0xA3 && t.memRead 2 == 0 && t.i == 0x0FFE)) = true := by decide

/-- V-IDX-14: the registers above x stay. -/
theorem test_ldRegs :
    shows (regs { (at0 0xF165).memWriteList 0x400 [0xC0, 0xC1, 0xC2] with i := 0x400 } [(2, 0x99)])
      (fun t => t.getV 0 == 0xC0 && t.getV 1 == 0xC1 && t.getV 2 == 0x99 && t.i == 0x400) = true := by decide

/-- V-IDX-16: a store over the running instruction; memory stays in its canonical form. -/
theorem test_stRegs_over_itself :
    shows (regs { at0 0xF155 with i := 0x200 } [(0, 0x12), (1, 0x08)])
      (fun t => t.memRead 0x200 == 0x12 && t.memRead 0x201 == 0x08 && t.pc == 0x202 && Memory.wf t.mem) = true := by
  decide

/-! ## Display -/

/-- V-DRW-1. -/
theorem test_cls :
    shows (lit (at0 0x00E0) [(0, 0), (63, 31)])
      (fun t => rowIs t 0 [] && rowIs t 31 [] && t.dirty && t.pc == 0x202) = true := by decide

/-- V-DRW-10 and V-DRW-4: clipped at the right edge, with no wrap and no collision at columns 0 and 1; the origin
wraps and the rows below row 31 are dropped. -/
theorem test_drw_clips :
    (shows (lit (regs { (at0 0xD011).memWrite 0x300 0xFF with i := 0x300 } [(0, 60)]) [(0, 0), (1, 0)])
        (fun t => rowIs t 0 [0, 1, 60, 61, 62, 63] && t.getV 15 == 0 && t.dirty) &&
      shows (regs { (at0 0xD012).memWriteList 0x300 [0x80, 0x80] with i := 0x300 } [(0, 66), (1, 63)])
        (fun t => rowIs t 31 [2] && rowIs t 0 [] && t.getV 15 == 0)) = true := by decide

/-- V-DRW-6 and V-DRW-2 (decision D5): one collision suffices; n = 0 draws nothing, clears VF and sets Dirty. -/
theorem test_drw_flag :
    (shows (lit { (at0 0xD011).memWrite 0x300 0xC0 with i := 0x300 } [(0, 0)])
        (fun t => rowIs t 0 [1] && t.getV 15 == 1) &&
      shows (regs (at0 0xD010) [(15, 7)])
        (fun t => t == { regs (at0 0xD010) [(15, 0)] with dirty := true, pc := 0x202 })) = true := by decide

/-! ## Keypad and timers -/

/-- V-KEY-1, V-KEY-2. -/
theorem test_skp :
    (shows ((regs (at0 0xE09E) [(0, 0x15)]).setKey 5 true) (·.pc == 0x204) &&
      shows (regs (at0 0xE09E) [(0, 0x15)]) (·.pc == 0x202)) = true := by decide

/-- V-KEY-3, V-KEY-4. -/
theorem test_sknp :
    (shows ((regs (at0 0xE0A1) [(0, 0x15)]).setKey 5 true) (·.pc == 0x202) &&
      shows (regs (at0 0xE0A1) [(0, 0x15)]) (·.pc == 0x204)) = true := by decide

/-- S8, step 1: the latch is set and PC stays. -/
theorem test_ldVxK_issues :
    shows (at0 0xF30A) (fun t => t == { at0 0xF30A with wait := some 3 }) = true := by decide

/-- V-KEY-8, the last step. -/
theorem test_ldVxK_completes :
    shows { at0 0xFF0A with wait := some 15, keyEv := some 0xC }
      (fun t => vpc t 15 == (0x0C, 0x202) && t.wait == none && t.keyEv == none) = true := by decide

/-- V-TMR-1. -/
theorem test_ldVxDt : shows { at0 0xF307 with dt := 0x2A } (fun t => t.getV 3 == 0x2A && t.dt == 0x2A) = true := by decide

/-- S7, the second step. -/
theorem test_ldDtVx : shows (regs (at0 0xF015) [(0, 2)]) (fun t => t.dt == 2 && t.st == 0) = true := by decide

/-- V-TMR-2, the second step. -/
theorem test_ldStVx : shows (regs (at0 0xF018) [(0, 1)]) (fun t => t.st == 1 && soundActive t) = true := by decide

/-! ## Faults and host commands -/

/-- V-FLT-1: nothing but the record changes. -/
theorem test_unknown_opcode :
    shows (at0 0xF090) (fun t => t == { at0 0xF090 with fault := some ⟨.unknownOpcode, 0x200⟩ }) = true := by decide

/-- V-TMR-3, V-TMR-4, with one cycle a tick: only a timer that is not 0 goes down. -/
theorem test_tick_counts_down :
    (match tickOf 1 { at0 0x0000 with dt := 3 } with
      | .next t => t.dt == 2 && t.st == 0 && t.pc == 0x202
      | .fault _ => false
      | .refused _ => false) = true := by decide

/-- V-FLT-6, its third cycle: the fault ends the tick and DT stays. -/
theorem test_tick_fault_keeps_timers :
    (match tickOf 9 { at0 0xFFFF with dt := 5 } with
      | .next t => t.dt == 5 && t.fault == some ⟨.unknownOpcode, 0x200⟩
      | .fault _ => false
      | .refused _ => false) = true := by decide

/-- V-KEY-6: the first transition wins; both keys are down. -/
theorem test_press_first_wins :
    (let t := press 2 (press 7 { State.reset with wait := some 1 })
     t.keyEv == some 7 && t.key 7 && t.key 2) = true := by decide

/-- V-KEY-9: a press before the wait is not captured. -/
theorem test_press_before_wait : (press 4 State.reset).keyEv = none := by decide

/-- R188: bytes in order from 0x200. -/
theorem test_load :
    (let t := load [0x12, 0x34] State.reset
     t.memRead 0x1FF == 0 && t.memRead 0x200 == 0x12 && t.memRead 0x201 == 0x34 && t.memRead 0x202 == 0) = true := by
  decide

/-- V-RST-1: the rows of the font the spec lists there, and the bytes beside it. -/
theorem test_reset_memory :
    (List.range 10).map (fun k => State.reset.memRead (0x050 + k)) =
      [0xF0, 0x90, 0x90, 0x90, 0xF0, 0x20, 0x60, 0x20, 0x20, 0x70] ∧
    (List.range 6).map (fun k => State.reset.memRead (0x09B + k)) = [0xF0, 0x80, 0xF0, 0x80, 0x80, 0] ∧
    State.reset.memRead 0x04F = 0 ∧ State.reset.memRead 0xFFF = 0 := by decide

/-- R182, D13: the default count of cycles in a tick. -/
theorem test_default_cycles : Config.defaultCyclesPerTick = 9 := by decide

/-! ## Witnesses: every obligation with hypotheses has a state and operands that meet them -/

/-- DecodeInvertsEncode. -/
theorem witness_DecodeInvertsEncode : (Instr.sys 0x0E1).wellFormed = true := by decide

/-- EncodeInvertsDecode. -/
theorem witness_EncodeInvertsDecode : decodeWord 0x0FFF = .ok (.sys 0xFFF) := by decide

/-- IllegalWordsAreTheListedSets: a word of each set, at an edge of it. -/
theorem witness_IllegalWordsAreTheListedSets :
    decodeWord 0x5001 = .error (.unknownOpcode 0x5001) ∧ decodeWord 0x800D = .error (.unknownOpcode 0x800D) ∧
    decodeWord 0x900F = .error (.unknownOpcode 0x900F) ∧ decodeWord 0xE0A0 = .error (.unknownOpcode 0xE0A0) ∧
    decodeWord 0xFF66 = .error (.unknownOpcode 0xFF66) := by decide

/-- StepRunsTheDecodedInstruction, the word at the top of memory. -/
theorem witness_StepRunsTheDecodedInstruction :
    let s := { State.reset with pc := 0xFFF }.placeWord 0x1234
    Running s ∧ decodeBytes (s.memRead s.pc.toNat) (s.memRead (s.pc.toNat + 1)) = .ok (.jp 0x234) :=
  ⟨⟨rfl, rfl⟩, by decide⟩

/-- UnknownOpcodeIsRecorded. -/
theorem witness_UnknownOpcodeIsRecorded :
    let s := { State.reset with pc := 0x050 }
    Running s ∧ decodeBytes (s.memRead s.pc.toNat) (s.memRead (s.pc.toNat + 1)) =
      .error (.unknownOpcode 0xF090) :=
  ⟨⟨rfl, rfl⟩, by decide⟩

/-- HaltedMachineIsFrozen, and a command that is no RESET. -/
theorem witness_HaltedMachineIsFrozen :
    ({ State.reset with fault := some ⟨.stackOverflow, 0x200⟩ } : State).fault = some ⟨.stackOverflow, 0x200⟩ ∧
    ∀ seed, Command.press 3 ≠ .reset seed :=
  ⟨rfl, fun _ h => by cases h⟩

/-- KeyWaitIdlesThenCompletes, no event captured. -/
theorem witness_KeyWaitIdles :
    let s : State := { State.reset with wait := some 15 }
    s.fault = none ∧ s.wait = some 15 ∧ s.keyEv = none := ⟨rfl, rfl, rfl⟩

/-- KeyWaitIdlesThenCompletes, an event captured. -/
theorem witness_KeyWaitCompletes :
    let s : State := { State.reset with wait := some 15, keyEv := some 15 }
    s.fault = none ∧ s.wait = some 15 ∧ s.keyEv = some 15 := ⟨rfl, rfl, rfl⟩

/-- PlacedWordIsRunNext, with an address outside the two placed bytes on either side. -/
theorem witness_PlacedWordIsRunNext :
    decodeTableWord 16 0xFF65 = some (.ldRegs 15) ∧ maskAddr 0x1FF ≠ maskAddr State.reset.pc.toNat ∧
    maskAddr 0x202 ≠ maskAddr (State.reset.pc.toNat + 1) := by decide

/-- MemoryReadsWhatWasWritten: an address that the mask brings to the written one, and one beside it. -/
theorem witness_MemoryReadsWhatWasWritten : 0x1FFF &&& 0xFFF = 0xFFF &&& 0xFFF ∧ 0xFFE &&& 0xFFF ≠ 0xFFF &&& 0xFFF := by decide

/-- CanonicalMemoriesAreEqualData: one memory reached by two ways. -/
theorem witness_CanonicalMemoriesAreEqualData :
    let m := Memory.write (Memory.write [] 0xFFF 1) 0 2
    let m' := Memory.write (Memory.write (Memory.write [] 0 2) 0xFFF 3) 0xFFF 1
    Memory.wf m = true ∧ Memory.wf m' = true ∧ (∀ a, a < 4096 → Memory.read m a = Memory.read m' a) :=
  ⟨by decide, by decide, fun _ _ => rfl⟩

/-- The clauses for `x ≠ 15` of AddWritesSumThenCarry, SubWritesDifferenceThenNotBorrow,
SubnWritesReverseDifferenceThenNotBorrow and ShiftsActOnVxAndKeepTheLostBit. -/
theorem witness_x_is_not_15 : (14 : Nibble) ≠ 15 := by decide

/-- RandomByteIsDrawnAndMasked: a bit of the mask that is 0. -/
theorem witness_RandomByteIsDrawnAndMasked : (0x7F : Byte).getLsbD 7 = false := by decide

/-- CallPushesNext and CallThenRetReturns, the last free slot; a live slot below it. -/
theorem witness_CallPushesNext : ({ State.reset with sp := 15 } : State).sp.val < 16 ∧ (14 : Fin 16).val < 15 := by decide

/-- RetPopsIntoPc, the first and the last slot, and the slot the popped SP names. -/
theorem witness_RetPopsIntoPc :
    0 < ({ State.reset with sp := 1 } : State).sp.val ∧ 0 < ({ State.reset with sp := 16 } : State).sp.val ∧
    (15 : Fin 16).val = ({ State.reset with sp := 16 } : State).pop.sp.val := by decide

/-- StackFaultsAreRecorded, both clauses. -/
theorem witness_StackFaultsAreRecorded :
    ({ State.reset with sp := 16 } : State).sp.val = 16 ∧ State.reset.sp.val = 0 := by decide

/-- BcdStoresThreeDigits: an address beside the three bytes, when they wrap. -/
theorem witness_BcdStoresThreeDigits :
    let s : State := { State.reset with i := 0xFFFF }
    maskAddr 2 ≠ maskAddr (s.addrI 0) ∧ maskAddr 2 ≠ maskAddr (s.addrI 1) ∧ maskAddr 2 ≠ maskAddr (s.addrI 2) := by
  decide

/-- RegistersAreStored: a register stored (the last one), and an address past the last byte. -/
theorem witness_RegistersAreStored :
    (15 : Nibble).toNat ≤ (15 : Nibble).toNat ∧
    ∀ k, k ≤ (15 : Nibble).toNat → maskAddr 16 ≠ maskAddr (State.reset.addrI k) := by decide

/-- StoreThenLoadRestores: another register file over the stored bytes, the same I. -/
theorem witness_StoreThenLoadRestores :
    let s : State := regs { State.reset with i := 0x300 } [(0, 7)]
    ∃ t, exec (.stRegs 0) s = .next t ∧ ∃ u : State, u.i = s.i ∧ (∀ a, u.memRead a = t.memRead a) ∧
      u.getV 0 ≠ s.getV 0 := by
  intro s
  exact ⟨_, rfl, regs (s.storeRegs 1) [(0, 0)], rfl, fun _ => rfl, by decide⟩

/-- DrawXorsTheClippedSprite: a sprite bit on a lit cell at the corner of the plane. -/
theorem witness_DrawXorsTheClippedSprite_collision :
    let s := lit (regs { State.reset.memWrite 0x300 0x80 with i := 0x300 } [(0, 63), (1, 31)]) [(63, 31)]
    ∃ px py, px < 64 ∧ py < 32 ∧ s.spriteOn 0 1 1 px py = true ∧ Framebuffer.cell s.fb px py = true :=
  ⟨63, 31, by decide⟩

/-- DrawXorsTheClippedSprite: a sprite bit on the plane and no lit cell under any. -/
theorem witness_DrawXorsTheClippedSprite_none :
    let s := regs { State.reset.memWrite 0x300 0x80 with i := 0x300 } [(0, 63), (1, 31)]
    s.spriteOn 0 1 1 63 31 = true ∧
    ∀ px py, px < 64 → py < 32 → s.spriteOn 0 1 1 px py = true → Framebuffer.cell s.fb px py = false := by
  refine ⟨by decide, fun px py hx hy _ => ?_⟩
  simp [regs, Framebuffer.cell, State.reset, State.resetWith, State.memWrite, State.setV]

/-- DrawingTwiceRestores: registers other than VF, and a sprite bit on an unlit cell of the corner. -/
theorem witness_DrawingTwiceRestores :
    let s := regs { State.reset.memWrite 0x300 0x80 with i := 0x300 } [(14, 63), (0, 31)]
    (14 : Nibble) ≠ 15 ∧ (0 : Nibble) ≠ 15 ∧ s.spriteOn 14 0 1 63 31 = true ∧
      Framebuffer.cell s.fb 63 31 = false := by decide

/-- VfIsWrittenAsAFlagByExactlySix, both clauses; in the second VF does change. -/
theorem witness_VfIsWrittenAsAFlagByExactlySix :
    writesFlag (.sub 15 1) = true ∧ writesFlag (.ldImm 15 3) = false ∧
    ∃ t, exec (.ldImm 15 3) State.reset = .next t ∧ t.getV 15 ≠ State.reset.getV 15 :=
  ⟨rfl, rfl, _, rfl, by decide⟩

/-- EachInstructionWritesOnlyItsParts: a part that is not written. -/
theorem witness_EachInstructionWritesOnlyItsParts : Part.mem ∉ writtenParts (.drw 0 1 2) := by decide

/-- StepNeverCountsTimersDown: steps that do change DT and ST. -/
theorem witness_StepNeverCountsTimersDown :
    (∃ t, step (regs (at0 0xF015) [(0, 2)]) = .next t ∧ t.dt ≠ (regs (at0 0xF015) [(0, 2)]).dt) ∧
    ∃ t, step (regs (at0 0xF018) [(0, 2)]) = .next t ∧ t.st ≠ (regs (at0 0xF018) [(0, 2)]).st :=
  ⟨⟨_, rfl, by decide⟩, _, rfl, by decide⟩

/-- StepWritesMemoryOnlyByStores: steps of both stores that do change a byte. -/
theorem witness_StepWritesMemoryOnlyByStores :
    (∃ t, step (regs (at0 0xF033) [(0, 1)]) = .next t ∧ t.memRead 2 ≠ (regs (at0 0xF033) [(0, 1)]).memRead 2) ∧
    ∃ t, step (regs (at0 0xF055) [(0, 1)]) = .next t ∧ t.memRead 0 ≠ (regs (at0 0xF055) [(0, 1)]).memRead 0 :=
  ⟨⟨_, rfl, by decide⟩, _, rfl, by decide⟩

/-- OnlyRndTouchesTheRandomSource. -/
theorem witness_OnlyRndTouchesTheRandomSource : ∀ x kk, Instr.drw 1 2 3 ≠ .rnd x kk := fun _ _ h => by cases h

/-- FreeSlotsAreUnobservable: two states that differ in the lowest free slot. -/
theorem witness_FreeSlotsAreUnobservable :
    let s : State := { State.reset with sp := 3 }
    let s' : State := { s with stack := s.stack.set 3 0xFFFF }
    s ≠ s' ∧ SameButFreeSlots s s' :=
  ⟨by decide, rfl, by decide⟩

/-- A state with every clause of the invariants at work: a listed byte, a live slot, a captured event. -/
def busy : State :=
  { (at0 0xF50A) with sp := 1, stack := State.reset.stack.set 0 0xFFF, wait := some 5, keyEv := some 9 }

/-- StepKeepsInv. -/
theorem witness_StepKeepsInv : Inv busy ∧ ∃ t, step busy = .next t ∧ t ≠ busy :=
  ⟨⟨by decide, by decide, by decide, fun _ h => by cases h⟩, _, rfl, by decide⟩

/-- CommandsKeepInv. -/
theorem witness_CommandsKeepInv : Inv busy ∧ ∃ t, commandOf 9 (.load [1, 2]) busy = .next t ∧ t ≠ busy :=
  ⟨witness_StepKeepsInv.1, _, rfl, by decide⟩

/-- WaitingPcAddressesFx0A: the step that issues the wait, and a press during it. -/
theorem witness_WaitingPcAddressesFx0A :
    (∀ bytes, Command.step ≠ .load bytes) ∧ WaitsAtFx0A (at0 0xF50A) ∧
    (∃ t, commandOf 9 .step (at0 0xF50A) = .next t ∧ t.wait = some 5) ∧
    WaitsAtFx0A busy ∧ busy.wait = some 5 := by
  refine ⟨fun _ h => (by cases h), fun _ h => (by cases h), ⟨_, rfl, rfl⟩, ?_, rfl⟩
  intro x h
  cases h
  decide

/-- ResetIsAFreshConstruction: addresses at the edges of the two zero ranges. -/
theorem witness_ResetIsAFreshConstruction :
    maskAddr 0x04F < 0x050 ∧ 0x0A0 ≤ maskAddr 0x0A0 ∧ 0x0A0 ≤ maskAddr 0xFFF := by decide

/-- LoadRejectsLargeImages, the shortest image that is too long. -/
theorem witness_LoadRejectsLargeImages :
    State.reset.fault = none ∧ (List.replicate 3585 (0xAA : Byte)).length > 3584 :=
  ⟨rfl, by rw [List.length_replicate]; decide⟩

/-- LoadCopiesTheImage, the longest image that fits: its last byte, and an address below it. -/
theorem witness_LoadCopiesTheImage :
    State.reset.fault = none ∧ (List.replicate 3584 (0xAA : Byte)).length ≤ 3584 ∧
    3583 < (List.replicate 3584 (0xAA : Byte)).length ∧ maskAddr 0x1FF < 0x200 :=
  ⟨rfl, by rw [List.length_replicate], by rw [List.length_replicate]; decide, by decide⟩

/-- LoadCopiesTheImage, the empty image: the address just past it. -/
theorem witness_LoadCopiesTheImage_empty :
    ([] : List Byte).length ≤ 3584 ∧ 0x200 + ([] : List Byte).length ≤ maskAddr 0x200 := by decide

/-- TimersTickDuringTheWait. -/
theorem witness_TimersTickDuringTheWait : IdleOnKey { State.reset with wait := some 0, dt := 1 } :=
  ⟨rfl, fun h => (by cases h), rfl⟩

/-- KeyWaitEndsByATransition, the key up. -/
theorem witness_KeyWaitEndsByATransition_up :
    Running (at0 0xFF0A) ∧ (at0 0xFF0A).keyEv = none ∧ decodeWord (at0 0xFF0A).fetchWord = .ok (.ldVxK 15) ∧
    (at0 0xFF0A).key 15 = false :=
  ⟨⟨rfl, rfl⟩, rfl, by decide, by decide⟩

/-- KeyWaitEndsByATransition, the key down. -/
theorem witness_KeyWaitEndsByATransition_down :
    let s := (at0 0xFF0A).setKey 15 true
    Running s ∧ s.keyEv = none ∧ decodeWord s.fetchWord = .ok (.ldVxK 15) ∧ s.key 15 = true :=
  ⟨⟨rfl, rfl⟩, rfl, by decide, by decide⟩

/-- OnlyAPressLeadsOutOfTheWait: a press that does capture. -/
theorem witness_OnlyAPressLeadsOutOfTheWait :
    let s : State := { State.reset with wait := some 15 }
    (∀ seed, Command.press 15 ≠ .reset seed) ∧ s.wait = some 15 ∧ s.keyEv = none ∧
    ∃ t, commandOf 9 (.press 15) s = .next t ∧ t.keyEv ≠ none :=
  ⟨fun _ h => (by cases h), rfl, rfl, _, rfl, by decide⟩

/-- FinishedProgramsStayPut. -/
theorem witness_FinishedProgramsStayPut : Finished (at0 0x1200) :=
  ⟨⟨rfl, rfl⟩, 0x200, by decide, by decide⟩

/-- ZeroWordOnlyAdvances: the last byte of memory and the first, and the word just below the font. -/
theorem witness_ZeroWordOnlyAdvances :
    let s : State := { State.reset with pc := 0xFFF }
    let s' : State := { State.reset with pc := 0x04E }
    (Running s ∧ s.memRead s.pc.toNat = 0 ∧ s.memRead (s.pc.toNat + 1) = 0) ∧
    Running s' ∧ s'.memRead s'.pc.toNat = 0 ∧ s'.memRead (s'.pc.toNat + 1) = 0 :=
  ⟨⟨⟨rfl, rfl⟩, by decide, by decide⟩, ⟨rfl, rfl⟩, by decide, by decide⟩

end Sys2Proof.Tests
end

section
/-! The statements of spec/00_scope.md: the pseudocode names NEXT and SKIP (R6). -/

namespace Sys2Proof.Machine

/-- PC holds 16 bits and the mask keeps 12 (D1), so the wrap of the 16-bit sum at 65536 does not show
modulo 4096. -/
theorem add_and_mask12_toNat (w k : Word) : ((w + k) &&& 0x0FFF).toNat = (w.toNat + k.toNat) % 4096 :=
  calc ((w + k) &&& 0x0FFF).toNat
      = (w.toNat + k.toNat) % 2 ^ 16 % 4096 := by rw [and_mask12_toNat, BitVec.toNat_add]
    _ = (w.toNat + k.toNat) % 4096 := Nat.mod_mod_of_dvd _ (by decide)

theorem State.nextPc_toNat (s : State) : s.nextPc.toNat = (s.pc.toNat + 2) % 4096 :=
  add_and_mask12_toNat s.pc 2

theorem State.skipPc_toNat (s : State) : s.skipPc.toNat = (s.pc.toNat + 4) % 4096 :=
  add_and_mask12_toNat s.pc 4

/-- Settles O11: NEXT and SKIP are both a masked sum of PC and a constant. -/
theorem nextAndSkipAreTwelveBits : Obligations.NextAndSkipAreTwelveBits :=
  fun s => ⟨s.nextPc_toNat, s.skipPc_toNat⟩

end Sys2Proof.Machine
end

section
/-! What an instruction writes and what it leaves alone: one frame per operation of the state, the frame of every
instruction built from them, and who writes VF, memory, the stack and the latch (spec/10_state.md R12 to R23). -/

namespace Sys2Proof.Machine

/-! ## RET and CALL below and at the limit of the stack -/

theorem execRet_empty {s : State} (h : s.sp.val = 0) : execRet s = .next (s.raise .stackUnderflow) :=
  dif_pos h

theorem execRet_pop {s : State} (h : 0 < s.sp.val) : execRet s = .next (s.pop.jumpTo (s.top h)) :=
  dif_neg (Nat.ne_of_gt h)

theorem execCall_full {s : State} (nnn : Addr) (h : s.sp.val = 16) :
    execCall nnn s = .next (s.raise .stackOverflow) :=
  dif_pos h

theorem execCall_push {s : State} (nnn : Addr) (h : s.sp.val < 16) :
    execCall nnn s = .next ((s.push s.nextPc h).jumpTo (immAddr nnn)) :=
  dif_neg (Nat.ne_of_lt h)

/-- What RET can do (R81, R174). -/
theorem exec_ret_cases {s t : State} (h : exec .ret s = .next t) :
    (s.sp.val = 0 ∧ t = s.raise .stackUnderflow) ∨ ∃ hp : 0 < s.sp.val, t = s.pop.jumpTo (s.top hp) := by
  rcases Nat.eq_zero_or_pos s.sp.val with hz | hp
  · rw [exec, execRet_empty hz] at h
    cases h
    exact .inl ⟨hz, rfl⟩
  · rw [exec, execRet_pop hp] at h
    cases h
    exact .inr ⟨hp, rfl⟩

/-- What CALL can do (R83, R173). -/
theorem exec_call_cases {nnn : Addr} {s t : State} (h : exec (.call nnn) s = .next t) :
    (s.sp.val = 16 ∧ t = s.raise .stackOverflow) ∨
      ∃ hp : s.sp.val < 16, t = (s.push s.nextPc hp).jumpTo (immAddr nnn) := by
  rcases Nat.lt_or_eq_of_le (Nat.le_of_lt_succ s.sp.isLt) with hp | hf
  · rw [exec, execCall_push nnn hp] at h
    cases h
    exact .inr ⟨hp, rfl⟩
  · rw [exec, execCall_full nnn hf] at h
    cases h
    exact .inl ⟨hf, rfl⟩

/-! ## Frames compose -/

theorem Part.same_trans {p : Part} {s t u : State} (hst : p.same s t) (htu : p.same t u) : p.same s u := by
  cases p with
  | v | mem => exact fun a => (htu a).trans (hst a)
  | stack => exact ⟨htu.1.trans hst.1, htu.2.trans hst.2⟩
  | _ => exact Eq.trans htu hst

theorem KeepsAllBut.refl (ps : List Part) (s : State) : KeepsAllBut ps s s := by
  intro p _
  cases p <;> simp [Part.same]

/-- One update after another writes at most what the two write. -/
theorem KeepsAllBut.trans {ps qs : List Part} {s t u : State} (hst : KeepsAllBut ps s t)
    (htu : KeepsAllBut qs t u) : KeepsAllBut (ps ++ qs) s u := by
  intro p hp
  rw [List.mem_append, not_or] at hp
  exact Part.same_trans (hst p hp.1) (htu p hp.2)

theorem KeepsAllBut.mono {ps qs : List Part} {s t : State} (h : KeepsAllBut ps s t) (hsub : ps ⊆ qs) :
    KeepsAllBut qs s t :=
  fun p hp => h p fun hmem => hp (hsub hmem)

/-! ## The frame of each operation of the state -/

section
variable (s : State)

theorem State.keeps_of_setV (x : Nibble) (b : Byte) : KeepsAllBut [.v] s (s.setV x b) := by
  intro p hp
  cases p <;> simp [Part.same] at hp ⊢

theorem State.keeps_of_loadRegs (n : Nat) : KeepsAllBut [.v] s (s.loadRegs n) := by
  induction n with
  | zero => exact KeepsAllBut.refl _ s
  | succ k ih => exact (ih.trans (State.keeps_of_setV _ _ _)).mono (by decide)

theorem State.keeps_of_setResultThenFlag (x : Nibble) (b f : Byte) :
    KeepsAllBut [.v] s (s.setResultThenFlag x b f) :=
  ((s.keeps_of_setV x b).trans (State.keeps_of_setV _ vf f)).mono (by decide)

theorem State.keeps_of_memWrite (a : Nat) (b : Byte) : KeepsAllBut [.mem] s (s.memWrite a b) := by
  intro p hp
  cases p <;> simp [Part.same] at hp ⊢

theorem State.keeps_of_storeRegs (n : Nat) : KeepsAllBut [.mem] s (s.storeRegs n) := by
  induction n with
  | zero => exact KeepsAllBut.refl _ s
  | succ k ih => exact (ih.trans (State.keeps_of_memWrite _ _ _)).mono (by decide)

/-- A write of PC. `advance`, `skipIf` and `jumpTo` are three of them. -/
theorem State.keeps_of_pc (w : Word) : KeepsAllBut [.pc] s { s with pc := w } := by
  intro p hp
  cases p <;> simp [Part.same, State.getV, State.memRead] at hp ⊢

theorem State.keeps_of_push (a : Word) (h : s.sp.val < 16) : KeepsAllBut [.stack] s (s.push a h) := by
  intro p hp
  cases p <;> simp [Part.same] at hp ⊢

theorem State.keeps_of_pop : KeepsAllBut [.stack] s s.pop := by
  intro p hp
  cases p <;> simp [Part.same] at hp ⊢

theorem State.keeps_of_raise (k : Fault) : KeepsAllBut [.fault] s (s.raise k) := by
  intro p hp
  cases p <;> simp [Part.same] at hp ⊢

theorem State.keeps_of_i (w : Word) : KeepsAllBut [.i] s { s with i := w } := by
  intro p hp
  cases p <;> simp [Part.same, State.getV, State.memRead] at hp ⊢

theorem State.keeps_of_dt (b : Byte) : KeepsAllBut [.dt] s { s with dt := b } := by
  intro p hp
  cases p <;> simp [Part.same, State.getV, State.memRead] at hp ⊢

theorem State.keeps_of_st (b : Byte) : KeepsAllBut [.st] s { s with st := b } := by
  intro p hp
  cases p <;> simp [Part.same, State.getV, State.memRead] at hp ⊢

theorem State.keeps_of_wait (w : Option Nibble) : KeepsAllBut [.wait] s { s with wait := w } := by
  intro p hp
  cases p <;> simp [Part.same, State.getV, State.memRead] at hp ⊢

theorem State.keeps_of_rng (g : Rng) : KeepsAllBut [.rng] s { s with rng := g } := by
  intro p hp
  cases p <;> simp [Part.same, State.getV, State.memRead] at hp ⊢

theorem State.keeps_of_fb_dirty (fb : Framebuffer) (d : Bool) :
    KeepsAllBut [.fb, .dirty] s { s with fb := fb, dirty := d } := by
  intro p hp
  cases p <;> simp [Part.same, State.getV, State.memRead] at hp ⊢

end

/-- The completion of a key wait writes one register, the latch, the event and PC (R153). -/
theorem State.keeps_of_waitCycle (s : State) (x : Nibble) :
    KeepsAllBut [.v, .wait, .keyEv, .pc] s (s.waitCycle x) := by
  intro p hp
  unfold State.waitCycle
  split <;> cases p <;> simp [Part.same, State.completeWait, State.memRead] at hp ⊢

/-- `PC <- NEXT` at the end of a rule adds PC to what the rule writes. -/
theorem KeepsAllBut.advance {ps : List Part} {s t : State} (h : KeepsAllBut ps s t) :
    KeepsAllBut (ps ++ [.pc]) s t.advance :=
  h.trans (t.keeps_of_pc _)

/-! ## The frame of each instruction -/

/-- An instruction leaves alone every part its rule does not write. -/
theorem exec_keeps {i : Instr} {s t : State} (h : exec i s = .next t) : KeepsAllBut (writtenParts i) s t := by
  cases i with
  | cls => cases h; exact (s.keeps_of_fb_dirty _ _).advance
  | ret =>
    rcases exec_ret_cases h with ⟨-, rfl⟩ | ⟨hp, rfl⟩
    · exact (s.keeps_of_raise _).mono (by simp [writtenParts])
    · exact (s.keeps_of_pop.trans (s.pop.keeps_of_pc _)).mono (by simp [writtenParts])
  | call nnn =>
    rcases exec_call_cases h with ⟨-, rfl⟩ | ⟨hp, rfl⟩
    · exact (s.keeps_of_raise _).mono (by simp [writtenParts])
    · exact ((s.keeps_of_push _ hp).trans (State.keeps_of_pc _ _)).mono (by simp [writtenParts])
  | sys _ | jp _ | jpV0 _ | seImm _ _ | sneImm _ _ | seReg _ _ | sneReg _ _ | skp _ | sknp _ =>
    cases h; exact s.keeps_of_pc _
  | ldImm x _ | addImm x _ | ldReg x _ | orReg x _ | andReg x _ | xorReg x _ | ldVxDt x =>
    cases h; exact (s.keeps_of_setV x _).advance
  | addReg x _ | sub x _ | shr x _ | subn x _ | shl x _ =>
    cases h; exact (s.keeps_of_setResultThenFlag x _ _).advance
  | rnd x _ =>
    cases h; exact ((s.keeps_of_rng _).trans (State.keeps_of_setV _ x _)).advance.mono (by simp [writtenParts])
  | drw _ _ _ =>
    cases h; exact ((s.keeps_of_fb_dirty _ _).trans (State.keeps_of_setV _ vf _)).advance.mono (by simp [writtenParts])
  | ldI _ | addI _ | ldF _ => cases h; exact (s.keeps_of_i _).advance
  | ldB x =>
    cases h
    exact (((s.keeps_of_memWrite _ _).trans (State.keeps_of_memWrite _ _ _)).trans
      (State.keeps_of_memWrite _ _ _)).advance.mono (by simp [writtenParts])
  | stRegs _ => cases h; exact (s.keeps_of_storeRegs _).advance
  | ldRegs _ => cases h; exact (s.keeps_of_loadRegs _).advance
  | ldVxK _ => cases h; exact s.keeps_of_wait _
  | ldDtVx _ => cases h; exact (s.keeps_of_dt _).advance
  | ldStVx _ => cases h; exact (s.keeps_of_st _).advance

/-- Settles O41: `exec` always answers a next state, and its frame is composed from those of the operations. -/
theorem eachInstructionWritesOnlyItsParts : Obligations.EachInstructionWritesOnlyItsParts := by
  intro i s
  obtain ⟨t, ht⟩ := exec_next i s
  exact ⟨t, ht, exec_keeps ht⟩

/-! ## Who writes a part -/

theorem mem_writtenParts_stack {i : Instr} (h : Part.stack ∈ writtenParts i) :
    i = .ret ∨ ∃ nnn, i = .call nnn := by
  cases i <;> simp [writtenParts] at h ⊢

theorem mem_writtenParts_mem {i : Instr} (h : Part.mem ∈ writtenParts i) :
    (∃ x, i = .ldB x) ∨ ∃ x, i = .stRegs x := by
  cases i <;> simp [writtenParts] at h ⊢

theorem mem_writtenParts_wait {i : Instr} (h : Part.wait ∈ writtenParts i) : ∃ x, i = .ldVxK x := by
  cases i <;> simp [writtenParts] at h ⊢

theorem keyEv_notMem_writtenParts (i : Instr) : Part.keyEv ∉ writtenParts i := by
  cases i <;> simp [writtenParts]

end Sys2Proof.Machine
end

section
/-! The rules of spec/10_state.md that speak of every instruction: VF as a flag (R12), memory (R17), the slots above SP
(R15). -/

namespace Sys2Proof.Machine

/-! ## VF (R12, R69) -/

theorem flagByte_eq_zero_or_one (b : Bool) : flagByte b = 0 ∨ flagByte b = 1 := by
  cases b <;> simp [flagByte]

theorem and_one_eq_zero_or_one (a : Byte) : a &&& 1 = 0 ∨ a &&& 1 = 1 := by
  rw [show (1 : Byte) = 1#8 from rfl, BitVec.and_one_eq_setWidth_ofBool_getLsbD]
  cases a.getLsbD 0 <;> simp

@[simp] theorem State.getV_setResultThenFlag_vf (s : State) (x : Nibble) (b f : Byte) :
    (s.setResultThenFlag x b f).getV vf = f := by
  rw [State.getV_setResultThenFlag, if_pos rfl]

/-- The six flag writers leave 0 or 1 in VF, whatever register is their result's. -/
theorem exec_flag {i : Instr} {s t : State} (hi : writesFlag i = true) (h : exec i s = .next t) :
    t.getV vf = 0 ∨ t.getV vf = 1 := by
  cases i with
  | addReg _ _ | sub _ _ | subn _ _ =>
    cases h
    rw [State.advance_getV, State.getV_setResultThenFlag_vf]
    exact flagByte_eq_zero_or_one _
  | shr _ _ | shl _ _ =>
    cases h
    rw [State.advance_getV, State.getV_setResultThenFlag_vf]
    exact and_one_eq_zero_or_one _
  | drw _ _ _ =>
    cases h
    rw [State.advance_getV, State.getV_setV_same]
    exact flagByte_eq_zero_or_one _
  | _ => cases hi

/-- A register that changed is the one written. -/
theorem State.eq_of_getV_setV_ne {s : State} {x r : Nibble} {b : Byte} (h : (s.setV x b).getV r ≠ s.getV r) :
    x = r := by
  by_contra hx
  exact h (s.getV_setV_other b (Ne.symm hx))

/-- Of the registers `Fx65` loads, VF is one only when `x = 15`. -/
theorem State.eq_vf_of_getV_loadRegs_ne {s : State} {x : Nibble}
    (h : (s.loadRegs (x.toNat + 1)).getV vf ≠ s.getV vf) : x = vf := by
  have hx := x.isLt
  rw [State.loadRegs_getV _ _ (by omega)] at h
  split_ifs at h with hlt
  · apply BitVec.eq_of_toNat_eq
    change 15 < x.toNat + 1 at hlt
    change x.toNat = 15
    omega
  · exact absurd rfl h

/-- An instruction that writes no flag changes VF as its `x` register only. -/
theorem xField_of_vf_ne {i : Instr} {s t : State} (hi : writesFlag i = false) (h : exec i s = .next t)
    (hvf : t.getV vf ≠ s.getV vf) : xField i = some vf := by
  have hv : Part.v ∈ writtenParts i := by
    by_contra hv
    exact hvf (exec_keeps h .v hv vf)
  cases i with
  | ldImm x _ | addImm x _ | ldReg x _ | orReg x _ | andReg x _ | xorReg x _ | ldVxDt x =>
    cases h
    exact congrArg some (State.eq_of_getV_setV_ne hvf)
  | rnd x kk =>
    cases h
    exact congrArg some (State.eq_of_getV_setV_ne (s := s.rand.2) hvf)
  | ldRegs x =>
    cases h
    exact congrArg some (State.eq_vf_of_getV_loadRegs_ne hvf)
  | addReg _ _ | sub _ _ | shr _ _ | subn _ _ | shl _ _ | drw _ _ _ => cases hi
  | _ => simp [writtenParts] at hv

/-- Settles O40: `exec_flag` for the six, `xField_of_vf_ne` for the others. -/
theorem vfIsWrittenAsAFlagByExactlySix : Obligations.VfIsWrittenAsAFlagByExactlySix := by
  intro i s
  obtain ⟨t, ht⟩ := exec_next i s
  exact ⟨t, ht, fun hi => exec_flag hi ht, fun hi hvf => xField_of_vf_ne hi ht hvf⟩

/-! ## Memory (R17, R47) -/

/-- A byte `Fx33` changes stands at one of its three addresses. -/
theorem exec_ldB_memRead_ne {x : Nibble} {s t : State} {a : Nat} (h : exec (.ldB x) s = .next t)
    (ha : t.memRead a ≠ s.memRead a) : ∃ k, k < 3 ∧ maskAddr a = maskAddr (s.addrI k) := by
  by_contra! hno
  cases h
  apply ha
  simp only [State.advance_memRead, State.memRead_memWrite_mask]
  rw [if_neg (hno 2 (by decide)), if_neg (hno 1 (by decide)), if_neg (hno 0 (by decide))]

/-- A byte `Fx55` changes stands at the address of one of V0 to Vx. -/
theorem exec_stRegs_memRead_ne {x : Nibble} {s t : State} {a : Nat} (h : exec (.stRegs x) s = .next t)
    (ha : t.memRead a ≠ s.memRead a) : ∃ k, k ≤ x.toNat ∧ maskAddr a = maskAddr (s.addrI k) := by
  by_contra! hno
  cases h
  exact ha (s.storeRegs_memRead_other _ a fun k hk => hno k (Nat.le_of_lt_succ hk))

/-- Settles O43: of the branches of a cycle only an instruction writes memory, and of the instructions only the two
stores do. -/
theorem stepWritesMemoryOnlyByStores : Obligations.StepWritesMemoryOnlyByStores := by
  intro s
  rcases cycle_cases s with ⟨-, h⟩ | ⟨x, -, -, h⟩ | ⟨hr, i, hd, h⟩ | ⟨-, e, -, h⟩
  · exact ⟨_, h, fun a ha => absurd rfl ha⟩
  · exact ⟨_, h, fun a ha => absurd (s.keeps_of_waitCycle x .mem (by decide) a) ha⟩
  · obtain ⟨t, ht⟩ := exec_next i s
    refine ⟨t, h.trans ht, fun a ha => ⟨hr, ?_⟩⟩
    have hm : Part.mem ∈ writtenParts i := by
      by_contra hm
      exact ha (exec_keeps ht .mem hm a)
    rcases mem_writtenParts_mem hm with ⟨x, rfl⟩ | ⟨x, rfl⟩
    · exact .inl ⟨x, hd, exec_ldB_memRead_ne ht ha⟩
    · exact .inr ⟨x, hd, exec_stRegs_memRead_ne ht ha⟩
  · exact ⟨_, h, fun a ha => absurd (s.raise_memRead _ a) ha⟩

/-! ## The slots at or above SP (R15) -/

theorem State.memRead_congr {s t : State} (h : t.mem = s.mem) (a : Nat) : t.memRead a = s.memRead a := by
  unfold State.memRead
  rw [h]

/-- The rasterizer reads memory and I only. -/
theorem State.plotRows_congr {s t : State} (hm : t.mem = s.mem) (hi : t.i = s.i) (x0 y0 n : Nat) (p : Plot) :
    t.plotRows x0 y0 n p = s.plotRows x0 y0 n p := by
  induction n with
  | zero => rfl
  | succ r ih =>
    have hread : t.memRead (t.addrI r) = s.memRead (s.addrI r) := by
      rw [State.memRead_congr hm, State.addrI, hi, State.addrI]
    rw [State.plotRows, State.plotRows, ih, hread]

section
variable (s : State) (st : Vector Word 16)

theorem State.drawn_with_stack (x y n : Nibble) : { s with stack := st }.drawn x y n = s.drawn x y n :=
  State.plotRows_congr (s := s) (t := { s with stack := st }) rfl rfl _ _ _ _

theorem State.storeRegs_with_stack (n : Nat) :
    { s with stack := st }.storeRegs n = { s.storeRegs n with stack := st } := by
  induction n with
  | zero => rfl
  | succ k ih => rw [State.storeRegs, ih]; rfl

theorem State.loadRegs_with_stack (n : Nat) :
    { s with stack := st }.loadRegs n = { s.loadRegs n with stack := st } := by
  induction n with
  | zero => rfl
  | succ k ih => rw [State.loadRegs, ih]; rfl

end

/-- An instruction other than CALL and RET does the same on another stack, and leaves that stack alone. -/
theorem exec_with_stack {i : Instr} {s t : State} (hi : Part.stack ∉ writtenParts i) (h : exec i s = .next t)
    (st : Vector Word 16) : exec i { s with stack := st } = .next { t with stack := st } := by
  cases i with
  | ret | call _ => simp [writtenParts] at hi
  | drw x y n =>
    cases h
    rw [exec, execDrw, State.drawn_with_stack]
    rfl
  | stRegs x =>
    cases h
    rw [exec, execStRegs, State.storeRegs_with_stack]
    rfl
  | ldRegs x =>
    cases h
    rw [exec, execLdRegs, State.loadRegs_with_stack]
    rfl
  | _ => cases h; rfl

/-- A waiting cycle neither reads nor writes the stack. -/
theorem State.waitCycle_with_stack (s : State) (st : Vector Word 16) (x : Nibble) :
    { s with stack := st }.waitCycle x = { s.waitCycle x with stack := st } := by
  unfold State.waitCycle
  dsimp only
  split <;> rfl

theorem SameButFreeSlots.exists_stack {s s' : State} (h : SameButFreeSlots s s') :
    ∃ st : Vector Word 16, s' = { s with stack := st } ∧
      ∀ k : Fin 16, k.val < s.sp.val → st[k] = s.stack[k] :=
  ⟨s'.stack, h⟩

section
variable {s : State} {st : Vector Word 16} (hlive : ∀ k : Fin 16, k.val < s.sp.val → st[k] = s.stack[k])
include hlive

/-- An update that leaves the stack alone leaves the live slots alike. -/
theorem sameButFreeSlots_with_stack {t : State} (h : Part.stack.same s t) :
    SameButFreeSlots t { t with stack := st } := by
  obtain ⟨hsp, hst⟩ := h
  refine ⟨rfl, fun k hk => ?_⟩
  rw [hst]
  exact hlive k (hsp ▸ hk)

/-- RET reads the slot below SP, which is live, and leaves fewer slots live. -/
theorem exec_ret_with_stack :
    ∃ t t', exec .ret s = .next t ∧ exec .ret { s with stack := st } = .next t' ∧ SameButFreeSlots t t' := by
  rcases Nat.eq_zero_or_pos s.sp.val with hz | hp
  · exact ⟨_, _, execRet_empty hz, execRet_empty (s := { s with stack := st }) hz, rfl, hlive⟩
  · refine ⟨_, _, execRet_pop hp, execRet_pop (s := { s with stack := st }) hp, ?_, fun k hk => ?_⟩
    · have htop : { s with stack := st }.top hp = s.top hp :=
        hlive ⟨s.sp.val - 1, by omega⟩ (Nat.sub_lt hp Nat.one_pos)
      rw [htop]
      rfl
    · exact hlive k (Nat.lt_of_lt_of_le hk (Nat.sub_le _ _))

/-- CALL writes the same word to the one slot that becomes live. -/
theorem exec_call_with_stack (nnn : Addr) :
    ∃ t t', exec (.call nnn) s = .next t ∧ exec (.call nnn) { s with stack := st } = .next t' ∧
      SameButFreeSlots t t' := by
  rcases Nat.lt_or_eq_of_le (Nat.le_of_lt_succ s.sp.isLt) with hp | hf
  · refine ⟨_, _, execCall_push nnn hp, execCall_push (s := { s with stack := st }) nnn hp, rfl, fun k hk => ?_⟩
    have hk' : k.val < s.sp.val + 1 := hk
    rw [State.jumpTo_stack, State.jumpTo_stack, State.push_slot, State.push_slot]
    by_cases hnew : k.val = s.sp.val
    · rw [if_pos hnew, if_pos hnew]
      rfl
    · rw [if_neg hnew, if_neg hnew]
      exact hlive k (by omega)
  · exact ⟨_, _, execCall_full nnn hf, execCall_full (s := { s with stack := st }) nnn hf, rfl, hlive⟩

/-- No instruction tells two states apart that differ in free slots only. -/
theorem exec_of_live_eq (i : Instr) :
    ∃ t t', exec i s = .next t ∧ exec i { s with stack := st } = .next t' ∧ SameButFreeSlots t t' := by
  by_cases hi : Part.stack ∈ writtenParts i
  · rcases mem_writtenParts_stack hi with rfl | ⟨nnn, rfl⟩
    · exact exec_ret_with_stack hlive
    · exact exec_call_with_stack hlive nnn
  · obtain ⟨t, ht⟩ := exec_next i s
    exact ⟨t, _, ht, exec_with_stack hi ht st, sameButFreeSlots_with_stack hlive (exec_keeps ht .stack hi)⟩

end

/-- Settles O45: the two cycles take the same branch, and where they run an instruction they run the same one. -/
theorem freeSlotsAreUnobservable : Obligations.FreeSlotsAreUnobservable := by
  intro s s' h
  obtain ⟨st, rfl, hlive⟩ := h.exists_stack
  rcases cycle_cases s with ⟨hh, hc⟩ | ⟨x, hf, hw, hc⟩ | ⟨hr, i, hd, hc⟩ | ⟨hr, e, hd, hc⟩
  · exact ⟨_, _, hc, cycle_of_halted (s := { s with stack := st }) hh, h⟩
  · refine ⟨_, _, hc, cycle_of_waiting (s := { s with stack := st }) hf hw, ?_⟩
    rw [s.waitCycle_with_stack st]
    exact sameButFreeSlots_with_stack hlive (s.keeps_of_waitCycle x .stack (by decide))
  · obtain ⟨t, t', ht, ht', htt'⟩ := exec_of_live_eq hlive i
    exact ⟨t, t', hc.trans ht, (cycle_of_decode (s := { s with stack := st }) hr hd).trans ht', htt'⟩
  · exact ⟨_, _, hc, cycle_of_reject (s := { s with stack := st }) hr hd, rfl, hlive⟩

end Sys2Proof.Machine
end

section
/-! The invariants of spec/10_state.md R25: kept by every instruction, so by every cycle, so by every command of the
host (spec/60_exceptions.md R189). -/

namespace Sys2Proof.Machine

/-! ## Every instruction keeps them -/

/-- Memory keeps its canonical form: every write of it goes through `memWrite`. -/
theorem exec_mem_wf {i : Instr} {s t : State} (h : exec i s = .next t) (hs : Memory.wf s.mem = true) :
    Memory.wf t.mem = true := by
  cases i with
  | ldB x => cases h; exact State.memWrite_wf _ _ _ (State.memWrite_wf _ _ _ (State.memWrite_wf _ _ _ hs))
  | stRegs x => cases h; exact s.storeRegs_wf _ hs
  | ldRegs x =>
    cases h
    rw [State.loadRegs_eq]
    exact hs
  | ret => rcases exec_ret_cases h with ⟨-, rfl⟩ | ⟨_, rfl⟩ <;> exact hs
  | call _ => rcases exec_call_cases h with ⟨-, rfl⟩ | ⟨_, rfl⟩ <;> exact hs
  | _ => cases h; exact hs

theorem State.skipIf_pc_lt (s : State) (c : Bool) : (s.skipIf c).pc.toNat < 4096 := by
  cases c
  · exact s.nextPc_lt
  · exact s.skipPc_lt

/-- PC stays an address (R14, R25 (b)): it is NEXT, SKIP, a 12-bit target or a live slot, or it is kept. -/
theorem exec_pc_lt {i : Instr} {s t : State} (hs : Inv s) (h : exec i s = .next t) : t.pc.toNat < 4096 := by
  cases i with
  | ret =>
    rcases exec_ret_cases h with ⟨-, rfl⟩ | ⟨hp, rfl⟩
    · exact hs.pc_lt
    · exact hs.stack_lt ⟨s.sp.val - 1, by omega⟩ (Nat.sub_lt hp Nat.one_pos)
  | call nnn =>
    rcases exec_call_cases h with ⟨-, rfl⟩ | ⟨_, rfl⟩
    · exact hs.pc_lt
    · exact immAddr_lt nnn
  | jp nnn => cases h; exact immAddr_lt nnn
  | jpV0 nnn => cases h; exact s.indexedTarget_lt nnn
  | seImm _ _ | sneImm _ _ | seReg _ _ | sneReg _ _ | skp _ | sknp _ => cases h; exact s.skipIf_pc_lt _
  | ldVxK _ => cases h; exact hs.pc_lt
  | _ => cases h; exact State.nextPc_lt _

/-- The live slots stay addresses (R25 (c)): the one that a call adds is NEXT. -/
theorem exec_stack_lt {i : Instr} {s t : State} (hs : Inv s) (h : exec i s = .next t) (k : Fin 16)
    (hk : k.val < t.sp.val) : t.stack[k].toNat < 4096 := by
  by_cases hi : Part.stack ∈ writtenParts i
  · rcases mem_writtenParts_stack hi with rfl | ⟨nnn, rfl⟩
    · rcases exec_ret_cases h with ⟨-, rfl⟩ | ⟨_, rfl⟩
      · exact hs.stack_lt k hk
      · exact hs.stack_lt k (Nat.lt_of_lt_of_le hk (Nat.sub_le _ _))
    · rcases exec_call_cases h with ⟨-, rfl⟩ | ⟨hp, rfl⟩
      · exact hs.stack_lt k hk
      · have hk' : k.val < s.sp.val + 1 := hk
        rw [State.jumpTo_stack, State.push_slot]
        split_ifs with hnew
        · exact s.nextPc_lt
        · exact hs.stack_lt k (by omega)
  · obtain ⟨hsp, hst⟩ := exec_keeps h .stack hi
    rw [hst]
    exact hs.stack_lt k (hsp ▸ hk)

/-- R25 (e) from a running core: no event is captured yet, and no instruction captures one. -/
theorem exec_keyEv {i : Instr} {s t : State} (hs : Inv s) (hw : s.wait = none) (h : exec i s = .next t) :
    t.keyEv = none := by
  have hk : s.keyEv = none := by
    by_contra hk
    exact hs.keyEv_wait hk hw
  exact (exec_keeps h .keyEv (keyEv_notMem_writtenParts i)).trans hk

/-! ## Every cycle keeps them -/

theorem waitCycle_inv {s : State} (hs : Inv s) (x : Nibble) : Inv (s.waitCycle x) := by
  cases hk : s.keyEv with
  | none => rwa [State.waitCycle_none x hk]
  | some k =>
    rw [State.waitCycle_some x hk]
    exact ⟨hs.mem_wf, s.nextPc_lt, hs.stack_lt, fun h => absurd rfl h⟩

theorem raise_inv {s : State} (hs : Inv s) (k : Fault) : Inv (s.raise k) :=
  ⟨hs.mem_wf, hs.pc_lt, hs.stack_lt, hs.keyEv_wait⟩

theorem cycle_inv (s t : State) (hs : Inv s) (h : cycle s = .next t) : Inv t := by
  rcases cycle_cases s with ⟨-, hc⟩ | ⟨x, -, -, hc⟩ | ⟨hr, i, -, hc⟩ | ⟨-, e, -, hc⟩ <;> rw [hc] at h
  · cases h
    exact hs
  · cases h
    exact waitCycle_inv hs x
  · exact ⟨exec_mem_wf h hs.mem_wf, exec_pc_lt hs h, exec_stack_lt hs h,
      fun hk => absurd (exec_keyEv hs hr.2 h) hk⟩
  · cases h
    exact raise_inv hs _

/-- Settles O46: a step is a cycle. -/
theorem stepKeepsInv : Obligations.StepKeepsInv :=
  cycle_inv

/-! ## Every command keeps them -/

/-- Settles O47: memory lists nothing, PC is 0x200, no slot is live and no event is captured. -/
theorem resetHasInv : Obligations.ResetHasInv := fun seed =>
  ⟨resetWith_mem_wf seed, by change 0x200 < 4096; decide, fun _ hk => absurd hk (Nat.not_lt_zero _),
    fun h => absurd rfl h⟩

/-- What LOAD can do (R188, R172, R176). -/
theorem load_cases (bytes : List Byte) (s : State) :
    load bytes s = s ∨ load bytes s = s.raise .loadTooLarge ∨ load bytes s = s.memWriteList 0x200 bytes := by
  unfold load
  split_ifs
  · exact .inl rfl
  · exact .inr (.inl rfl)
  · exact .inr (.inr rfl)

/-- What PRESS can do (R185): nothing, capture the key for a wait, or set its level only. -/
theorem press_cases (k : Nibble) (s : State) :
    press k s = s ∨ (s.wait ≠ none ∧ press k s = { s.setKey k true with keyEv := some k }) ∨
      press k s = s.setKey k true := by
  unfold press
  dsimp only
  split_ifs with hd hc
  · exact .inl rfl
  · rw [Bool.and_eq_true] at hc
    exact .inr (.inl ⟨Option.isSome_iff_ne_none.mp hc.1, rfl⟩)
  · exact .inr (.inr rfl)

theorem load_inv {s : State} (hs : Inv s) (bytes : List Byte) : Inv (load bytes s) := by
  rcases load_cases bytes s with h | h | h <;> rw [h]
  · exact hs
  · exact raise_inv hs _
  · have hwf := State.memWriteList_wf bytes s 0x200 hs.mem_wf
    rw [State.memWriteList_eq]
    exact ⟨hwf, hs.pc_lt, hs.stack_lt, hs.keyEv_wait⟩

theorem press_inv {s : State} (hs : Inv s) (k : Nibble) : Inv (press k s) := by
  rcases press_cases k s with h | ⟨hw, h⟩ | h <;> rw [h]
  · exact hs
  · exact ⟨hs.mem_wf, hs.pc_lt, hs.stack_lt, fun _ => hw⟩
  · exact ⟨hs.mem_wf, hs.pc_lt, hs.stack_lt, hs.keyEv_wait⟩

theorem countTimers_inv (s : State) (hs : Inv s) : Inv s.countTimers :=
  ⟨hs.mem_wf, hs.pc_lt, hs.stack_lt, hs.keyEv_wait⟩

/-- Settles O48: TICK by induction on its cycles, LOAD by induction on the image, the others by one update each. -/
theorem commandsKeepInv : Obligations.CommandsKeepInv := by
  intro n c s t hs h
  cases c with
  | reset seed => cases h; exact resetHasInv seed
  | load bytes => cases h; exact load_inv hs bytes
  | tick => exact tickOf_keeps cycle_inv countTimers_inv n s t hs h
  | step => exact cycle_inv s t hs h
  | press k => cases h; exact press_inv hs k
  | release _ | consumeDirty => cases h; exact ⟨hs.mem_wf, hs.pc_lt, hs.stack_lt, hs.keyEv_wait⟩

/-! ## Every command answers -/

theorem tickOf_next (n : Nat) (s : State) : ∃ t, tickOf n s = .next t := by
  obtain ⟨t, ht⟩ := runCycles_next n s
  unfold tickOf
  rw [ht]
  dsimp only
  split_ifs <;> exact ⟨_, rfl⟩

/-- Settles O9 (the model's reading, log entry 7): TICK and STEP answer because every cycle does. -/
theorem everyCommandAnswersNext : Obligations.EveryCommandAnswersNext := by
  intro n c s
  cases c with
  | tick => exact tickOf_next n s
  | step => exact cycle_next s
  | reset _ | load _ | press _ | release _ | consumeDirty => exact ⟨_, rfl⟩

/-! ## The wait and its `Fx0A` (R25 (f)) -/

/-- A word decodes by a row of the map that it selects (R64). -/
theorem exists_row_of_decodeWord {op : Word} {i : Instr} (h : decodeWord op = .ok i) :
    ∃ row ∈ opcodeTable, row.selects op = true ∧ row.build op = i := by
  unfold decodeWord at h
  split at h
  next row hrow =>
    cases h
    have hsel := List.find?_some (p := fun r : OpcodeRow => r.selects op) hrow
    exact ⟨row, List.mem_of_find?_eq_some hrow, hsel, rfl⟩
  next => cases h

/-- The one row that builds an `Fx0A`. -/
theorem row_of_build_ldVxK {op : Word} {x : Nibble} :
    ∀ row ∈ opcodeTable, row.build op = .ldVxK x → row.mask = 0xF0FF ∧ row.value = 0xF00A ∧ fieldX op = x := by
  simp [opcodeTable, opcodeRowsLow, opcodeRowsAlu, opcodeRowsHigh, opcodeRowsF]

/-- The word that decodes to `Fx0A` is `Fx0A`. -/
theorem eq_encode_of_decode_ldVxK {op : Word} {x : Nibble} (h : decodeWord op = .ok (.ldVxK x)) :
    op = encode (.ldVxK x) := by
  obtain ⟨row, hmem, hsel, hb⟩ := exists_row_of_decodeWord h
  obtain ⟨hm, hv, hx⟩ := row_of_build_ldVxK row hmem hb
  rw [← wordOfNibbles_fields op, OpcodeRow.selects_iff, hm, hv] at hsel
  obtain ⟨hT, -, hY, hN⟩ := hsel
  have hT : fieldT op = 0xF := (nibble_and_ones _).symm.trans hT
  have hY : fieldY op = 0x0 := (nibble_and_ones _).symm.trans hY
  have hN : fieldN op = 0xA := (nibble_and_ones _).symm.trans hN
  calc op = wordOfNibbles 0xF x 0x0 0xA := by rw [← wordOfNibbles_fields op, hT, hx, hY, hN]
    _ = encode (.ldVxK x) := (wordXKK_nibbles 0xF x 0x0 0xA).symm

theorem nibbleF_append (x : Nibble) : ((0xF : Nibble) ++ x : Byte) = 0xF0 ||| x.setWidth 8 := by
  revert x
  decide

/-- The bytes a fetch of `Fx0A` read (R60). -/
theorem bytes_of_fetch_ldVxK {s : State} {x : Nibble} (h : decodeWord s.fetchWord = .ok (.ldVxK x)) :
    s.memRead s.pc.toNat = 0xF0 ||| x.setWidth 8 ∧ s.memRead (s.pc.toNat + 1) = 0x0A := by
  have he : s.fetchWord = wordXKK 0xF x 0x0A := eq_encode_of_decode_ldVxK h
  constructor
  · calc s.memRead s.pc.toNat = highByte s.fetchWord := (highByte_wordOfBytes _ _).symm
      _ = 0xF0 ||| x.setWidth 8 := by rw [he, highByte_wordXKK, nibbleF_append]
  · calc s.memRead (s.pc.toNat + 1) = lowByte s.fetchWord := (lowByte_wordOfBytes _ _).symm
      _ = 0x0A := by rw [he, lowByte_wordXKK]

theorem waitsAtFx0A_of_wait_none {s : State} (h : s.wait = none) : WaitsAtFx0A s := by
  intro x hx
  rw [h] at hx
  cases hx

/-- Only latch, PC and memory matter. -/
theorem WaitsAtFx0A.of_same {s t : State} (h : WaitsAtFx0A s) (hw : t.wait = s.wait) (hp : t.pc = s.pc)
    (hm : t.mem = s.mem) : WaitsAtFx0A t := by
  intro x hx
  rw [hp, State.memRead_congr hm, State.memRead_congr hm]
  exact h x (hw ▸ hx)

/-- An instruction run by a core that does not wait sets the latch only as the `Fx0A` at PC. -/
theorem exec_waitsAtFx0A {i : Instr} {s t : State} (hw : s.wait = none) (hd : decodeWord s.fetchWord = .ok i)
    (h : exec i s = .next t) : WaitsAtFx0A t := by
  by_cases hi : Part.wait ∈ writtenParts i
  · obtain ⟨x, rfl⟩ := mem_writtenParts_wait hi
    cases h
    rintro _ ⟨rfl⟩
    exact bytes_of_fetch_ldVxK hd
  · exact waitsAtFx0A_of_wait_none ((exec_keeps h .wait hi).trans hw)

theorem cycle_waitsAtFx0A (s t : State) (hs : WaitsAtFx0A s) (h : cycle s = .next t) : WaitsAtFx0A t := by
  rcases cycle_cases s with ⟨-, hc⟩ | ⟨x, -, -, hc⟩ | ⟨hr, i, hd, hc⟩ | ⟨-, e, -, hc⟩ <;> rw [hc] at h
  · cases h
    exact hs
  · cases h
    cases hk : s.keyEv with
    | none => rwa [State.waitCycle_none x hk]
    | some k =>
      rw [State.waitCycle_some x hk]
      exact waitsAtFx0A_of_wait_none rfl
  · exact exec_waitsAtFx0A hr.2 hd h
  · cases h
    exact hs.of_same rfl rfl rfl

theorem press_waitsAtFx0A {s : State} (hs : WaitsAtFx0A s) (k : Nibble) : WaitsAtFx0A (press k s) := by
  rcases press_cases k s with h | ⟨-, h⟩ | h <;> rw [h] <;> exact hs.of_same rfl rfl rfl

/-- Settles O49: a cycle sets the latch only where it fetched an `Fx0A`, and while it waits leaves PC and memory
alone until the latch is cleared. -/
theorem waitingPcAddressesFx0A : Obligations.WaitingPcAddressesFx0A := by
  intro n c s t hc hs h
  cases c with
  | reset _ => cases h; exact waitsAtFx0A_of_wait_none rfl
  | load bytes => exact absurd rfl (hc bytes)
  | tick => exact tickOf_keeps cycle_waitsAtFx0A (fun _ hu => hu.of_same rfl rfl rfl) n s t hs h
  | step => exact cycle_waitsAtFx0A s t hs h
  | press k => cases h; exact press_waitsAtFx0A hs k
  | release _ | consumeDirty => cases h; exact hs.of_same rfl rfl rfl

end Sys2Proof.Machine
end

section
/-! The statements of spec/20_memory.md: masked access (R41, R49), and that memories in the canonical form are told
apart by what they read (R40, log entry 6). -/

namespace Sys2Proof.Machine

/-! ## The mask before an access changes nothing -/

theorem State.memRead_maskAddr (s : State) (a : Nat) : s.memRead (maskAddr a) = s.memRead a := by
  rw [State.memRead, maskAddr_maskAddr, ← State.memRead]

theorem State.memWrite_maskAddr (s : State) (a : Nat) (b : Byte) : s.memWrite (maskAddr a) b = s.memWrite a b := by
  rw [State.memWrite, maskAddr_maskAddr, ← State.memWrite]

/-- Settles O12: the mask is idempotent, and `State.memRead_memWrite_mask` is the read after the write. -/
theorem memoryReadsWhatWasWritten : Obligations.MemoryReadsWhatWasWritten := by
  intro s a c b
  rw [← maskAddr_eq_and, ← maskAddr_eq_and]
  exact ⟨(s.memRead_maskAddr a).symm, (s.memWrite_maskAddr a b).symm, s.memRead_memWrite_mask a c b⟩

/-! ## What a list in the canonical form reads -/

theorem Memory.wfFrom_cons {lo k : Nat} {c : Byte} {m : Memory} :
    Memory.wfFrom lo ((k, c) :: m) = true ↔
      lo ≤ k ∧ k < 4096 ∧ c ≠ resetByte k ∧ Memory.wfFrom (k + 1) m = true := by
  simp [Memory.wfFrom, and_assoc]

theorem Memory.read_cons_same (k : Nat) (c : Byte) (m : Memory) : Memory.read ((k, c) :: m) k = c := by
  simp [Memory.read, Memory.lookup]

theorem Memory.read_cons_other {k a : Nat} (c : Byte) (m : Memory) (h : k ≠ a) :
    Memory.read ((k, c) :: m) a = Memory.read m a := by
  simp [Memory.read, Memory.lookup, h]

/-- Below the address the form starts from, memory reads as after reset. -/
theorem Memory.read_of_lt {lo a : Nat} {m : Memory} (hm : Memory.wfFrom lo m = true) (ha : a < lo) :
    Memory.read m a = resetByte a := by
  rw [Memory.read, Memory.lookup_of_lt hm ha, Option.getD_none]

/-- A memory that reads the same as one with first entry `k` cannot start above `k`: the entry is not the reset byte,
so it shows. -/
theorem Memory.not_wfFrom_succ_head {lo k : Nat} {c : Byte} {m m' : Memory}
    (hm : Memory.wfFrom lo ((k, c) :: m) = true)
    (h : ∀ a, a < 4096 → Memory.read ((k, c) :: m) a = Memory.read m' a) : ¬ Memory.wfFrom (k + 1) m' = true := by
  intro hm'
  obtain ⟨-, hk, hc, -⟩ := Memory.wfFrom_cons.mp hm
  apply hc
  calc c = Memory.read ((k, c) :: m) k := (Memory.read_cons_same k c m).symm
    _ = Memory.read m' k := h k hk
    _ = resetByte k := Memory.read_of_lt hm' (Nat.lt_succ_self k)

/-- Past equal first entries the tails read the same: up to the first address neither lists anything. -/
theorem Memory.read_tail_congr {k : Nat} {c : Byte} {m m' : Memory} (hm : Memory.wfFrom (k + 1) m = true)
    (hm' : Memory.wfFrom (k + 1) m' = true)
    (h : ∀ a, a < 4096 → Memory.read ((k, c) :: m) a = Memory.read ((k, c) :: m') a) :
    ∀ a, a < 4096 → Memory.read m a = Memory.read m' a := by
  intro a ha
  by_cases hka : k = a
  · have hlt : a < k + 1 := by omega
    rw [Memory.read_of_lt hm hlt, Memory.read_of_lt hm' hlt]
  · rw [← Memory.read_cons_other c m hka, ← Memory.read_cons_other c m' hka]
    exact h a ha

/-- The canonical form from any address up is determined by what it reads. -/
theorem Memory.eq_of_read_eq {lo : Nat} {m m' : Memory} (hm : Memory.wfFrom lo m = true)
    (hm' : Memory.wfFrom lo m' = true) (h : ∀ a, a < 4096 → Memory.read m a = Memory.read m' a) : m = m' := by
  induction m generalizing lo m' with
  | nil =>
    cases m' with
    | nil => rfl
    | cons e' m' => exact absurd rfl (Memory.not_wfFrom_succ_head hm' fun a ha => (h a ha).symm)
  | cons e m ih =>
    obtain ⟨k, c⟩ := e
    have hle := Memory.not_wfFrom_succ_head hm h
    cases m' with
    | nil => exact absurd rfl hle
    | cons e' m' =>
      obtain ⟨k', c'⟩ := e'
      have hle' := Memory.not_wfFrom_succ_head hm' fun a ha => (h a ha).symm
      obtain ⟨-, hk, hc, hw⟩ := Memory.wfFrom_cons.mp hm
      obtain ⟨-, hk', hc', hw'⟩ := Memory.wfFrom_cons.mp hm'
      have hkk : k = k' := by
        rcases Nat.lt_trichotomy k k' with hlt | heq | hgt
        · exact absurd (Memory.wfFrom_cons.mpr ⟨hlt, hk', hc', hw'⟩) hle
        · exact heq
        · exact absurd (Memory.wfFrom_cons.mpr ⟨hgt, hk, hc, hw⟩) hle'
      subst hkk
      have hcc : c = c' := by simpa only [Memory.read_cons_same] using h k hk
      subst hcc
      rw [ih hw hw' (Memory.read_tail_congr hw hw' h)]

/-- Settles O13: the canonical form starts at address 0. -/
theorem canonicalMemoriesAreEqualData : Obligations.CanonicalMemoriesAreEqualData :=
  fun _ _ hm hm' h => Memory.eq_of_read_eq hm hm' h

end Sys2Proof.Machine
end

section
/-! The statements of spec/30_encoding.md: the encoder and the decoder are inverse to each other (R62, R64, R66), which
words are rejected (R65), and that a cycle runs the word its two bytes form (R60, R67). -/

namespace Sys2Proof

/-! ## SYS and the two words that are not its own (R64, R66) -/

theorem addr_eq_iff (a b c : Nibble) (nnn : Addr) :
    a ++ b ++ c = (nnn : BitVec (4 + 4 + 4)) ↔
      a = nnn.extractLsb' 8 4 ∧ b = nnn.extractLsb' 4 4 ∧ c = nnn.extractLsb' 0 4 := by
  constructor
  · intro h
    have hw : wordOfNibbles 0 a b c =
        wordOfNibbles 0 (nnn.extractLsb' 8 4) (nnn.extractLsb' 4 4) (nnn.extractLsb' 0 4) := by
      rw [← wordNNN_nibbles, h, wordNNN_eq]
    exact ((wordOfNibbles_inj _ _ _ _ _ _ _ _).mp hw).2
  · rintro ⟨rfl, rfl, rfl⟩
    exact addr_nibbles nnn

/-- SYS has a word of its own unless its nibbles are those of `00E0` or `00EE` (R64, R66). -/
theorem wellFormed_sys_iff (a b c : Nibble) :
    (Instr.sys (a ++ b ++ c)).wellFormed = true ↔
      ¬(a = 0x0#4 ∧ b = 0xE#4 ∧ c = 0x0#4) ∧ ¬(a = 0x0#4 ∧ b = 0xE#4 ∧ c = 0xE#4) := by
  rw [Instr.wellFormed, Bool.and_eq_true, bne_iff_ne, bne_iff_ne, ne_eq, ne_eq, addr_eq_iff, addr_eq_iff]
  rfl

/-! ## Decoding undoes encoding -/

theorem decodeWord_encode_sys {nnn : Addr} (h : (Instr.sys nnn).wellFormed = true) :
    decodeWord (encode (.sys nnn)) = .ok (.sys nnn) := by
  rw [← addr_nibbles nnn, wellFormed_sys_iff] at h
  rw [encode, wordNNN_eq, decodeWord_top0, if_neg h.1, if_neg h.2, addr_nibbles]

/-- Settles O2: one case a format, each from what the decoder answers for the format's top nibbles. -/
theorem decodeInvertsEncode : Obligations.DecodeInvertsEncode := by
  intro i hi
  cases i with
  | cls | ret => rfl
  | sys nnn => exact decodeWord_encode_sys hi
  | jp nnn | call nnn | ldI nnn | jpV0 nnn =>
    simp only [encode, wordNNN_eq, decodeWord_top1, decodeWord_top2, decodeWord_topA, decodeWord_topB, addr_nibbles]
  | seImm x kk | sneImm x kk | ldImm x kk | addImm x kk | rnd x kk =>
    simp only [encode, wordXKK_eq, decodeWord_top3, decodeWord_top4, decodeWord_top6, decodeWord_top7,
      decodeWord_topC, byte_nibbles]
  | drw x y n => exact decodeWord_topD x y n
  | seReg x y => exact decodeWord_top5 x y _
  | sneReg x y => exact decodeWord_top9 x y _
  | ldReg x y | orReg x y | andReg x y | xorReg x y | addReg x y | sub x y | shr x y | subn x y | shl x y =>
    exact decodeWord_top8 x y _
  | skp x | sknp x =>
    rw [encode, wordXKK_eq]
    exact decodeWord_topE x _ _
  | ldVxDt x | ldVxK x | ldDtVx x | ldStVx x | addI x | ldF x | ldB x | stRegs x | ldRegs x =>
    rw [encode, wordXKK_eq]
    exact decodeWord_topF x _ _

/-! ## Encoding undoes decoding -/

/-- A decoded word is encoded again, said of the word's nibbles. -/
theorem encode_of_decodeWord_nibbles {t a b c : Nibble} {i : Instr} (h : decodeWord (wordOfNibbles t a b c) = .ok i) :
    i.wellFormed = true ∧ encode i = wordOfNibbles t a b c := by
  rcases nibble_cases t with rfl | rfl | rfl | rfl | rfl | rfl | rfl | rfl | rfl | rfl | rfl | rfl | rfl | rfl | rfl | rfl
  · rw [decodeWord_top0] at h
    split_ifs at h with h0 hE <;> cases h
    · obtain ⟨rfl, rfl, rfl⟩ := h0
      exact ⟨rfl, rfl⟩
    · obtain ⟨rfl, rfl, rfl⟩ := hE
      exact ⟨rfl, rfl⟩
    · exact ⟨(wellFormed_sys_iff a b c).mpr ⟨h0, hE⟩, wordNNN_nibbles 0x0 a b c⟩
  · cases (decodeWord_top1 a b c).symm.trans h
    exact ⟨rfl, wordNNN_nibbles 0x1 a b c⟩
  · cases (decodeWord_top2 a b c).symm.trans h
    exact ⟨rfl, wordNNN_nibbles 0x2 a b c⟩
  · cases (decodeWord_top3 a b c).symm.trans h
    exact ⟨rfl, wordXKK_nibbles 0x3 a b c⟩
  · cases (decodeWord_top4 a b c).symm.trans h
    exact ⟨rfl, wordXKK_nibbles 0x4 a b c⟩
  · rw [decodeWord_top5] at h
    split_ifs at h with hc
    cases h
    exact ⟨rfl, by rw [hc]; rfl⟩
  · cases (decodeWord_top6 a b c).symm.trans h
    exact ⟨rfl, wordXKK_nibbles 0x6 a b c⟩
  · cases (decodeWord_top7 a b c).symm.trans h
    exact ⟨rfl, wordXKK_nibbles 0x7 a b c⟩
  · rw [decodeWord_top8] at h
    split_ifs at h <;> cases h <;> exact ⟨rfl, by simp [encode, *]⟩
  · rw [decodeWord_top9] at h
    split_ifs at h with hc
    cases h
    exact ⟨rfl, by rw [hc]; rfl⟩
  · cases (decodeWord_topA a b c).symm.trans h
    exact ⟨rfl, wordNNN_nibbles 0xA a b c⟩
  · cases (decodeWord_topB a b c).symm.trans h
    exact ⟨rfl, wordNNN_nibbles 0xB a b c⟩
  · cases (decodeWord_topC a b c).symm.trans h
    exact ⟨rfl, wordXKK_nibbles 0xC a b c⟩
  · cases (decodeWord_topD a b c).symm.trans h
    exact ⟨rfl, rfl⟩
  · rw [decodeWord_topE] at h
    split_ifs at h <;> cases h <;> exact ⟨rfl, by simp [encode, wordXKK_eq, *]⟩
  · rw [decodeWord_topF] at h
    split_ifs at h <;> cases h <;> exact ⟨rfl, by simp [encode, wordXKK_eq, *]⟩

theorem exists_nibbles (op : Word) : ∃ t a b c, op = wordOfNibbles t a b c :=
  ⟨_, _, _, _, (wordOfNibbles_fields op).symm⟩

/-- Settles O3: every word is the word of its nibbles. -/
theorem encodeInvertsDecode : Obligations.EncodeInvertsDecode := by
  intro op i h
  obtain ⟨t, a, b, c, rfl⟩ := exists_nibbles op
  exact encode_of_decodeWord_nibbles h

/-! ## The rejected words (R65) -/

theorem fieldT_toNat (op : Word) : (fieldT op).toNat = op.toNat / 4096 := by
  have := op.isLt
  rw [fieldT, BitVec.extractLsb'_toNat, Nat.shiftRight_eq_div_pow]
  omega

theorem fieldN_toNat (op : Word) : (fieldN op).toNat = op.toNat % 16 := by
  rw [fieldN, BitVec.extractLsb'_toNat, Nat.shiftRight_zero]

theorem fieldKK_toNat (op : Word) : (fieldKK op).toNat = op.toNat % 256 := by
  rw [fieldKK, BitVec.extractLsb'_toNat, Nat.shiftRight_zero]

theorem byte_toNat (b c : Nibble) : (b ++ c : BitVec (4 + 4)).toNat = 16 * b.toNat + c.toNat := by
  rw [BitVec.toNat_append, ← Nat.shiftLeft_add_eq_or_of_lt c.isLt, Nat.shiftLeft_eq, Nat.mul_comm]

/-- Eleven top nibbles leave nothing to reject. -/
theorem exists_decodeWord_of_top {t : Nibble} (a b c : Nibble) (ht : t ∉ [0x5, 0x8, 0x9, 0xE, 0xF]) :
    ∃ i, decodeWord (wordOfNibbles t a b c) = .ok i := by
  rcases nibble_cases t with rfl | rfl | rfl | rfl | rfl | rfl | rfl | rfl | rfl | rfl | rfl | rfl | rfl | rfl | rfl | rfl
  · rw [decodeWord_top0]
    split_ifs <;> exact ⟨_, rfl⟩
  · exact ⟨_, decodeWord_top1 a b c⟩
  · exact ⟨_, decodeWord_top2 a b c⟩
  · exact ⟨_, decodeWord_top3 a b c⟩
  · exact ⟨_, decodeWord_top4 a b c⟩
  · exact absurd (by decide) ht
  · exact ⟨_, decodeWord_top6 a b c⟩
  · exact ⟨_, decodeWord_top7 a b c⟩
  · exact absurd (by decide) ht
  · exact absurd (by decide) ht
  · exact ⟨_, decodeWord_topA a b c⟩
  · exact ⟨_, decodeWord_topB a b c⟩
  · exact ⟨_, decodeWord_topC a b c⟩
  · exact ⟨_, decodeWord_topD a b c⟩
  · exact absurd (by decide) ht
  · exact absurd (by decide) ht

/-- The decoder rejects the word by name. -/
def Rejected (op : Word) : Prop := decodeWord op = .error (.unknownOpcode op)

section
variable (a b c : Nibble)

theorem rejected_top5_iff : Rejected (wordOfNibbles 0x5 a b c) ↔ c.toNat ≠ 0 := by
  rw [Rejected, decodeWord_top5]
  simp only [← BitVec.toNat_inj, BitVec.toNat_ofNat]
  split_ifs <;> simp <;> omega

theorem rejected_top9_iff : Rejected (wordOfNibbles 0x9 a b c) ↔ c.toNat ≠ 0 := by
  rw [Rejected, decodeWord_top9]
  simp only [← BitVec.toNat_inj, BitVec.toNat_ofNat]
  split_ifs <;> simp <;> omega

theorem rejected_top8_iff :
    Rejected (wordOfNibbles 0x8 a b c) ↔ c.toNat ∈ [0x8, 0x9, 0xA, 0xB, 0xC, 0xD, 0xF] := by
  have := c.isLt
  rw [Rejected, decodeWord_top8]
  simp only [← BitVec.toNat_inj, BitVec.toNat_ofNat]
  split_ifs <;> simp <;> omega

theorem rejected_topE_iff : Rejected (wordOfNibbles 0xE a b c) ↔ (b ++ c : Byte).toNat ∉ [0x9E, 0xA1] := by
  have := c.isLt
  rw [Rejected, decodeWord_topE, byte_toNat]
  simp only [← BitVec.toNat_inj, BitVec.toNat_ofNat]
  split_ifs <;> simp <;> omega

theorem rejected_topF_iff :
    Rejected (wordOfNibbles 0xF a b c) ↔
      (b ++ c : Byte).toNat ∉ [0x07, 0x0A, 0x15, 0x18, 0x1E, 0x29, 0x33, 0x55, 0x65] := by
  have := c.isLt
  rw [Rejected, decodeWord_topF, byte_toNat]
  simp only [← BitVec.toNat_inj, BitVec.toNat_ofNat]
  split_ifs <;> simp <;> omega

end

/-- Settles O4: the five top nibbles under which some word is rejected, and the eleven others. -/
theorem illegalWordsAreTheListedSets : Obligations.IllegalWordsAreTheListedSets := by
  intro op
  change Rejected op ↔ _
  rw [← fieldT_toNat, ← fieldN_toNat, ← fieldKK_toNat]
  obtain ⟨t, a, b, c, rfl⟩ := exists_nibbles op
  rw [fieldT_wordOfNibbles, fieldN_wordOfNibbles, fieldKK_wordOfNibbles]
  by_cases ht : t ∈ [0x5, 0x8, 0x9, 0xE, 0xF]
  · simp only [List.mem_cons, List.not_mem_nil, or_false] at ht
    rcases ht with rfl | rfl | rfl | rfl | rfl
    · rw [rejected_top5_iff]
      simp
    · rw [rejected_top8_iff]
      simp
    · rw [rejected_top9_iff]
      simp
    · rw [rejected_topE_iff]
      simp
    · rw [rejected_topF_iff]
      simp
  · obtain ⟨i, hi⟩ := exists_decodeWord_of_top a b c ht
    rw [Rejected, hi]
    obtain ⟨h5, h8, h9, hE, hF⟩ : t.toNat ≠ 5 ∧ t.toNat ≠ 8 ∧ t.toNat ≠ 9 ∧ t.toNat ≠ 14 ∧ t.toNat ≠ 15 := by
      simpa [← BitVec.toNat_inj] using ht
    simp [h5, h8, h9, hE, hF]

/-- Settles O1, by evaluation. -/
theorem specWordsDecode : Obligations.SpecWordsDecode := by
  unfold Obligations.SpecWordsDecode
  decide

/-! ## The cycle's word (R60, R67) -/

@[simp] theorem wordOfBytes_highByte_lowByte (w : Word) : wordOfBytes (highByte w) (lowByte w) = w := by
  apply BitVec.eq_of_getLsbD_eq
  intro i hi
  simp only [wordOfBytes, highByte, lowByte, BitVec.getLsbD_extractLsb', BitVec.getLsbD_append]
  interval_cases i <;> simp

/-- What the decoder reads of a table word is the word itself. -/
theorem decodeTableWord_eq_some {nbits w : Nat} {i : Instr} :
    decodeTableWord nbits w = some i ↔ decodeWord (tableWord nbits w) = .ok i := by
  rw [decodeTableWord, decodeBytes, wordOfBytes_highByte_lowByte]
  cases decodeWord (tableWord nbits w) <;> simp [Except.toOption]

end Sys2Proof

namespace Sys2Proof.Machine

/-- Settles O5: `fetchWord` is the word of the two bytes. -/
theorem stepRunsTheDecodedInstruction : Obligations.StepRunsTheDecodedInstruction :=
  fun _ _ hs hd => cycle_of_decode hs hd

/-! ## The placed word (log entry 5) -/

/-- Memory after a word is placed: its two bytes at PC and PC + 1, every other byte as before. -/
theorem State.memRead_placeWord (s : State) (w : Word) (a : Nat) :
    (s.placeWord w).memRead a =
      if maskAddr a = maskAddr (s.pc.toNat + 1) then lowByte w
      else if maskAddr a = maskAddr s.pc.toNat then highByte w else s.memRead a := by
  rw [← State.memRead_memWrite_mask, ← State.memRead_memWrite_mask]
  rfl

@[simp] theorem State.fetchWord_placeWord (s : State) (w : Word) : (s.placeWord w).fetchWord = w := by
  have hne : maskAddr s.pc.toNat ≠ maskAddr (s.pc.toNat + 1) := by
    unfold maskAddr
    omega
  calc (s.placeWord w).fetchWord
      = wordOfBytes ((s.placeWord w).memRead s.pc.toNat) ((s.placeWord w).memRead (s.pc.toNat + 1)) := rfl
    _ = wordOfBytes (highByte w) (lowByte w) := by
      rw [State.memRead_placeWord, State.memRead_placeWord, if_neg hne, if_pos rfl, if_pos rfl]
    _ = w := wordOfBytes_highByte_lowByte w

/-- Clearing what keeps a cycle from fetching. -/
theorem State.keeps_of_clear_fault_wait_keyEv (s : State) :
    KeepsAllBut [.fault, .wait, .keyEv] s { s with fault := none, wait := none, keyEv := none } := by
  intro p hp
  cases p <;> simp [Part.same, State.getV, State.memRead] at hp ⊢

theorem State.keeps_of_placeWord (s : State) (w : Word) :
    KeepsAllBut [.mem, .fault, .wait, .keyEv] s (s.placeWord w) :=
  (((s.keeps_of_memWrite _ _).trans (State.keeps_of_memWrite _ _ _)).trans
    (State.keeps_of_clear_fault_wait_keyEv _)).mono (by simp)

/-- Settles O10: a placed word is the one fetched. -/
theorem placedWordIsRunNext : Obligations.PlacedWordIsRunNext := by
  intro s w i hd
  refine ⟨cycle_of_decode ⟨rfl, rfl⟩ ?_, s.keeps_of_placeWord _, fun a hpc hpc1 => ?_⟩
  · rw [State.withFetchWord, State.fetchWord_placeWord]
    exact decodeTableWord_eq_some.mp hd
  · rw [State.withFetchWord, State.memRead_placeWord, if_neg hpc1, if_neg hpc]

/-- Settles O60: the word of two zero bytes is SYS, which only advances (R66, R80). -/
theorem zeroWordOnlyAdvances : Obligations.ZeroWordOnlyAdvances := by
  intro s hs hhi hlo
  have hd : decodeWord s.fetchWord = .ok (.sys 0) := by
    rw [State.fetchWord, hhi, hlo]
    rfl
  exact cycle_of_decode hs hd

end Sys2Proof.Machine
end

section
/-! The statements of spec/40_flow.md: control transfer (R80 to R88) and the law that a call and its return cancel
(spec/95_test_vectors.md L2). -/

namespace Sys2Proof.Machine

/-! ## CALL and RET (R81, R83) -/

/-- Settles O26: what a push and a jump change, below the limit of the stack. -/
theorem callPushesNext : Obligations.CallPushesNext := by
  intro nnn s hsp
  exact ⟨_, execCall_push nnn hsp, s.push_sp_val s.nextPc hsp, s.push_slot s.nextPc hsp, immAddr_toNat nnn,
    ((s.keeps_of_push _ hsp).trans (State.keeps_of_pc _ _)).mono (by simp)⟩

/-- The slot a pop reads is the one SP then names. -/
theorem State.top_eq_slot (s : State) (h : 0 < s.sp.val) (k : Fin 16) (hk : k.val = s.pop.sp.val) :
    s.top h = s.stack[k] :=
  getElem_congr_idx hk.symm

/-- Settles O27: what a pop and a jump to the popped slot change, above the empty stack. -/
theorem retPopsIntoPc : Obligations.RetPopsIntoPc := by
  intro s hsp
  exact ⟨_, execRet_pop hsp, Nat.sub_add_cancel hsp, rfl, s.top_eq_slot hsp,
    (s.keeps_of_pop.trans (s.pop.keeps_of_pc _)).mono (by simp)⟩

/-- Settles O29: the slot the return names is the one the call wrote, and the slots below it are those the call
left alone. -/
theorem callThenRetReturns : Obligations.CallThenRetReturns := by
  intro nnn s hsp
  obtain ⟨t, hcall, hspt, hslots, -, hkeepst⟩ := callPushesNext nnn s hsp
  obtain ⟨u, hret, hspu, hstack, hpc, hkeepsu⟩ := retPopsIntoPc t (by omega)
  have hback : u.sp.val = s.sp.val := by omega
  refine ⟨t, u, hcall, hret, ?_, Fin.ext hback, fun k hk => ?_, (hkeepst.trans hkeepsu).mono (by simp)⟩
  · calc u.pc = t.stack[(⟨s.sp.val, hsp⟩ : Fin 16)] := hpc _ hback.symm
      _ = s.nextPc := (hslots _).trans (if_pos rfl)
  · calc u.stack[k] = t.stack[k] := by rw [hstack]
      _ = s.stack[k] := (hslots k).trans (if_neg (Nat.ne_of_lt hk))

/-! ## SYS and the jumps (R80, R82, R84) -/

/-- Settles O21: SYS is an advance. -/
theorem sysOnlyAdvances : Obligations.SysOnlyAdvances :=
  fun _ s => ⟨s.advance, rfl, s.advance_pc, s.keeps_of_pc _⟩

/-- The target of `Bnnn` as a number (R84). -/
theorem State.indexedTarget_toNat (s : State) (nnn : Addr) :
    (s.indexedTarget nnn).toNat = (nnn.toNat + (s.getV 0).toNat) % 4096 := by
  rw [State.indexedTarget, add_and_mask12_toNat, immAddr_toNat, BitVec.toNat_setWidth_of_le (by decide)]

/-- Settles O22: both are a jump, to the immediate and to the indexed target. -/
theorem jumpsSetPc : Obligations.JumpsSetPc :=
  fun nnn s => ⟨⟨s.jumpTo (immAddr nnn), rfl, immAddr_toNat nnn, s.keeps_of_pc _⟩,
    ⟨s.jumpTo (s.indexedTarget nnn), rfl, s.indexedTarget_toNat nnn, s.keeps_of_pc _⟩⟩

/-! ## The skips (R85 to R88) -/

section
variable {i : Instr} {s : State} {c : Bool} {p : Prop} [Decidable p] (h : exec i s = .next (s.skipIf c))
include h

/-- An instruction whose rule is `if p: PC <- SKIP else: PC <- NEXT`. -/
theorem exec_skips_if (hc : c = true ↔ p) :
    ∃ t, exec i s = .next t ∧ t.pc = (if p then s.skipPc else s.nextPc) ∧ KeepsAllBut [.pc] s t :=
  ⟨s.skipIf c, h, (s.skipIf_pc c).trans (if_congr hc rfl rfl), s.keeps_of_pc _⟩

/-- An instruction whose rule is `if not p: PC <- SKIP else: PC <- NEXT`. -/
theorem exec_skips_if_not (hc : c = true ↔ ¬p) :
    ∃ t, exec i s = .next t ∧ t.pc = (if p then s.nextPc else s.skipPc) ∧ KeepsAllBut [.pc] s t := by
  rw [← ite_not]
  exact exec_skips_if h hc

end

/-- Settles O23: SE_IMM and SNE_IMM are the two skips on one comparison. -/
theorem immediateSkips : Obligations.ImmediateSkips :=
  fun _ _ _ => ⟨exec_skips_if rfl beq_iff_eq, exec_skips_if_not rfl bne_iff_ne⟩

/-- Settles O24: SE_REG and SNE_REG are the two skips on one comparison. -/
theorem registerSkips : Obligations.RegisterSkips :=
  fun _ _ _ => ⟨exec_skips_if rfl beq_iff_eq, exec_skips_if_not rfl bne_iff_ne⟩

end Sys2Proof.Machine
end

section
/-! The statements of spec/41_alu.md: loads, arithmetic, logic, shifts and the random byte (R100 to R111). Each rule is
one of two updates, the write of `V[x]` or the write of `V[x]` and then VF, followed by `PC <- NEXT`. -/

namespace Sys2Proof.Machine

/-! ## Results as numbers (R112) -/

theorem byte_sub_toNat (a b : Byte) : (a - b).toNat = (a.toNat + 256 - b.toNat) % 256 := by
  have hb := b.isLt
  rw [BitVec.toNat_sub]
  omega

theorem byte_shiftRight_one_toNat (a : Byte) : (a >>> 1).toNat = a.toNat / 2 := by
  rw [BitVec.toNat_ushiftRight, Nat.shiftRight_one]

theorem byte_shiftLeft_one_toNat (a : Byte) : (a <<< 1).toNat = a.toNat * 2 % 256 := by
  rw [BitVec.toNat_shiftLeft, Nat.shiftLeft_eq]

/-! ## Flags as conditions and as numbers (R106 to R110) -/

theorem flagByte_decide (p : Prop) [Decidable p] : flagByte (decide p) = if p then 1 else 0 :=
  if_congr decide_eq_true_iff rfl rfl

theorem byte_and_one_toNat (a : Byte) : (a &&& 1).toNat = a.toNat % 2 :=
  (BitVec.toNat_and a 1).trans (Nat.and_one_is_mod _)

theorem shrFlag_toNat (a : Byte) : (shrFlag a).toNat = a.toNat % 2 :=
  byte_and_one_toNat a

/-- Bit 7 of a byte is its quotient by 128, which is at most 1. -/
theorem shlFlag_toNat (a : Byte) : (shlFlag a).toNat = a.toNat / 128 := by
  have ha := a.isLt
  rw [shlFlag, byte_and_one_toNat, BitVec.toNat_ushiftRight, Nat.shiftRight_eq_div_pow]
  omega

/-! ## Which registers the two updates leave alone -/

theorem State.keepsRegs_of_setV (s : State) (x : Nibble) (b : Byte) : KeepsRegsBut [x] s (s.setV x b) :=
  fun _ hr => s.getV_setV_other b (List.ne_of_not_mem_cons hr)

theorem State.keepsRegs_of_setResultThenFlag (s : State) (x : Nibble) (b f : Byte) :
    KeepsRegsBut [x, vf] s (s.setResultThenFlag x b f) := by
  intro r hr
  obtain ⟨hx, hvf⟩ := List.ne_and_not_mem_of_not_mem_cons hr
  rw [State.getV_setResultThenFlag, if_neg (List.ne_of_not_mem_cons hvf), if_neg hx]

/-- The result stays in `V[x]` unless the flag, written last, overwrites it (R69). -/
theorem State.getV_setResultThenFlag_result (s : State) {x : Nibble} (b f : Byte) (hx : x ≠ vf) :
    (s.setResultThenFlag x b f).getV x = b := by
  rw [State.getV_setResultThenFlag, if_neg hx, if_pos rfl]

/-! ## The two shapes of rule -/

section
variable {i : Instr} {s : State} {x : Nibble} {a b f g : Byte} {n : Nat}

/-- An instruction whose rule is `V[x] <- b; PC <- NEXT`. -/
theorem exec_sets_reg (h : exec i s = .next (s.setV x b).advance) :
    ∃ t, exec i s = .next t ∧ t.getV x = b ∧ KeepsRegsBut [x] s t ∧ t.pc = s.nextPc ∧
      KeepsAllBut [.v, .pc] s t :=
  ⟨_, h, s.getV_setV_same x b, s.keepsRegs_of_setV x b, rfl, (s.keeps_of_setV x b).advance⟩

/-- The same rule with the register read bit by bit. -/
theorem exec_sets_reg_bits {p : Nat → Bool} (h : exec i s = .next (s.setV x b).advance)
    (hb : ∀ k, b.getLsbD k = p k) :
    ∃ t, exec i s = .next t ∧ (∀ k, (t.getV x).getLsbD k = p k) ∧ KeepsRegsBut [x] s t ∧ t.pc = s.nextPc ∧
      KeepsAllBut [.v, .pc] s t := by
  obtain ⟨t, ht, hx, hframe⟩ := exec_sets_reg h
  exact ⟨t, ht, fun k => hx ▸ hb k, hframe⟩

/-- An instruction whose rule is `V[x] <- b; V[15] <- f; PC <- NEXT`, its result as a number. -/
theorem exec_sets_reg_then_flag (h : exec i s = .next (s.setResultThenFlag x b f).advance)
    (hb : b.toNat = n) (hf : f = g) :
    ∃ t, exec i s = .next t ∧ (x ≠ 15 → (t.getV x).toNat = n) ∧ t.getV 15 = g ∧ KeepsRegsBut [x, 15] s t ∧
      t.pc = s.nextPc ∧ KeepsAllBut [.v, .pc] s t :=
  ⟨_, h, fun hx => (congrArg BitVec.toNat (s.getV_setResultThenFlag_result b f hx)).trans hb,
    (s.getV_setResultThenFlag_vf x b f).trans hf, s.keepsRegs_of_setResultThenFlag x b f, rfl,
    (s.keeps_of_setResultThenFlag x b f).advance⟩

/-- The subtractions: the difference modulo 256, then NOT borrow. -/
theorem exec_subtracts (h : exec i s = .next (s.setResultThenFlag x (a - b) (notBorrowFlag a b)).advance) :
    ∃ t, exec i s = .next t ∧ (x ≠ 15 → (t.getV x).toNat = (a.toNat + 256 - b.toNat) % 256) ∧
      t.getV 15 = (if a.toNat ≥ b.toNat then 1 else 0) ∧ KeepsRegsBut [x, 15] s t ∧ t.pc = s.nextPc ∧
      KeepsAllBut [.v, .pc] s t :=
  exec_sets_reg_then_flag h (byte_sub_toNat a b) (flagByte_decide _)

/-- The shifts: the shifted byte and then the lost bit, both as numbers. -/
theorem exec_shifts {m : Nat} (h : exec i s = .next (s.setResultThenFlag x b f).advance) (hb : b.toNat = n)
    (hf : f.toNat = m) :
    ∃ t, exec i s = .next t ∧ (x ≠ 15 → (t.getV x).toNat = n) ∧ (t.getV 15).toNat = m ∧
      KeepsRegsBut [x, 15] s t ∧ t.pc = s.nextPc ∧ KeepsAllBut [.v, .pc] s t := by
  obtain ⟨t, ht, hx, hvf, hframe⟩ := exec_sets_reg_then_flag h hb rfl
  exact ⟨t, ht, hx, (congrArg BitVec.toNat hvf).trans hf, hframe⟩

end

/-! ## Loads, copies and logic (R100 to R105) -/

/-- Settles O14: both write one register; the sum of two bytes wraps at 256. -/
theorem immediatesGoToVx : Obligations.ImmediatesGoToVx := by
  intro x kk s
  obtain ⟨t, ht, hx, hframe⟩ := exec_sets_reg (i := .addImm x kk) (s := s) rfl
  exact ⟨exec_sets_reg rfl, t, ht, (congrArg BitVec.toNat hx).trans (BitVec.toNat_add _ _), hframe⟩

/-- Settles O15: all four write one register; OR, AND and XOR are read bit by bit. -/
theorem copyAndLogicResults : Obligations.CopyAndLogicResults :=
  fun _ _ _ => ⟨exec_sets_reg rfl, exec_sets_reg_bits rfl fun _ => BitVec.getLsbD_or,
    exec_sets_reg_bits rfl fun _ => BitVec.getLsbD_and, exec_sets_reg_bits rfl fun _ => BitVec.getLsbD_xor⟩

/-! ## Results with a flag (R106 to R110) -/

/-- Settles O16: the sum of two bytes wraps at 256, and the carry is the condition of R106. -/
theorem addWritesSumThenCarry : Obligations.AddWritesSumThenCarry :=
  fun _ _ _ => exec_sets_reg_then_flag rfl (BitVec.toNat_add _ _) (flagByte_decide _)

/-- Settles O17: SUB is `exec_subtracts` at `V[x] - V[y]`. -/
theorem subWritesDifferenceThenNotBorrow : Obligations.SubWritesDifferenceThenNotBorrow :=
  fun _ _ _ => exec_subtracts rfl

/-- Settles O18: SUBN is `exec_subtracts` at `V[y] - V[x]`. -/
theorem subnWritesReverseDifferenceThenNotBorrow : Obligations.SubnWritesReverseDifferenceThenNotBorrow :=
  fun _ _ _ => exec_subtracts rfl

/-- Settles O19: both results and both lost bits are quotients and remainders of the old `V[x]`. -/
theorem shiftsActOnVxAndKeepTheLostBit : Obligations.ShiftsActOnVxAndKeepTheLostBit :=
  fun _ _ _ => ⟨exec_shifts rfl (byte_shiftRight_one_toNat _) (shrFlag_toNat _),
    exec_shifts rfl (byte_shiftLeft_one_toNat _) (shlFlag_toNat _)⟩

/-! ## The random byte (R111) -/

/-- A bit that the mask has 0 is 0 in the masked byte. -/
theorem getLsbD_and_of_mask_false {r kk : Byte} {b : Nat} (h : kk.getLsbD b = false) :
    (r &&& kk).getLsbD b = false := by
  rw [BitVec.getLsbD_and, h, Bool.and_false]

/-- Settles O20: RND is the write of the masked byte after the draw, which changes no register. -/
theorem randomByteIsDrawnAndMasked : Obligations.RandomByteIsDrawnAndMasked := by
  intro x kk s
  have hx : (s.rand.2.setV x (s.rand.1 &&& kk)).advance.getV x = (rngNext s.rng).1 &&& kk :=
    State.getV_setV_same _ _ _
  refine ⟨_, rfl, hx, rfl, fun b hb => ?_, s.rand.2.keepsRegs_of_setV x _, rfl,
    exec_keeps (i := .rnd x kk) rfl⟩
  rw [hx]
  exact getLsbD_and_of_mask_false hb

end Sys2Proof.Machine
end

section
/-! The statements of spec/42_index_memory.md: the index register and the memory transfers (R120 to R125), and the law
that a store and a load of the same registers cancel (spec/95_test_vectors.md L5). -/

namespace Sys2Proof.Machine

/-! ## The index register (R120 to R122) -/

/-- A byte zero-extended to a word keeps its value. -/
theorem zext16_byte_toNat (b : Byte) : (b.setWidth 16 : Word).toNat = b.toNat :=
  BitVec.toNat_setWidth_of_le (by decide)

/-- The last glyph starts at 0x050 + 5 * 15, so neither the product nor the sum wraps. -/
theorem State.glyphAddr_toNat (s : State) (x : Nibble) :
    (s.glyphAddr x).toNat = 0x050 + 5 * ((s.getV x).toNat % 16) := by
  have hmul : (5 * (s.getV x &&& 0x0F).setWidth 16 : Word).toNat = 5 * ((s.getV x).toNat % 16) := by
    rw [BitVec.toNat_mul, zext16_byte_toNat, and_mask4_toNat]
    exact Nat.mod_eq_of_lt (by change 5 * _ < 65536; omega)
  rw [State.glyphAddr, BitVec.toNat_add, hmul]
  exact Nat.mod_eq_of_lt (by change 80 + _ < 65536; omega)

/-- An instruction whose rule is `I <- w; PC <- NEXT`, I as a number. -/
theorem exec_sets_i {i : Instr} {s : State} {w : Word} {n : Nat} (h : exec i s = .next { s with i := w }.advance)
    (hw : w.toNat = n) :
    ∃ t, exec i s = .next t ∧ t.i.toNat = n ∧ t.pc = s.nextPc ∧ KeepsAllBut [.i, .pc] s t :=
  ⟨_, h, hw, rfl, (s.keeps_of_i w).advance⟩

/-- Settles O30: all three write I; the sum with a register wraps at 65536. -/
theorem indexRegisterResults : Obligations.IndexRegisterResults := by
  intro x nnn s
  have hsum : (s.i + (s.getV x).setWidth 16).toNat = (s.i.toNat + (s.getV x).toNat) % 65536 := by
    rw [BitVec.toNat_add, zext16_byte_toNat]
  exact ⟨exec_sets_i rfl (immAddr_toNat nnn), exec_sets_i rfl hsum, exec_sets_i rfl (s.glyphAddr_toNat x)⟩

/-! ## The three digits (R123) -/

theorem ofNat_byte_toNat {n : Nat} (h : n < 256) : (BitVec.ofNat 8 n).toNat = n :=
  (BitVec.toNat_ofNat n 8).trans (Nat.mod_eq_of_lt h)

theorem bcdHundreds_toNat (v : Byte) : (bcdHundreds v).toNat = v.toNat / 100 :=
  ofNat_byte_toNat (by omega)

theorem bcdTens_toNat (v : Byte) : (bcdTens v).toNat = v.toNat / 10 % 10 :=
  ofNat_byte_toNat (by omega)

theorem bcdOnes_toNat (v : Byte) : (bcdOnes v).toNat = v.toNat % 10 :=
  ofNat_byte_toNat (by omega)

/-- Memory after `Fx33`: a digit at each of its three addresses, every other byte as before. -/
theorem exec_ldB_memRead {x : Nibble} {s t : State} (h : exec (.ldB x) s = .next t) (a : Nat) :
    t.memRead a =
      if maskAddr a = maskAddr (s.addrI 2) then bcdOnes (s.getV x)
      else if maskAddr a = maskAddr (s.addrI 1) then bcdTens (s.getV x)
      else if maskAddr a = maskAddr (s.addrI 0) then bcdHundreds (s.getV x) else s.memRead a := by
  cases h
  simp only [State.advance_memRead, State.memRead_memWrite_mask]

/-- Settles O31: the three addresses differ after the mask (R47), so no digit overwrites another. -/
theorem bcdStoresThreeDigits : Obligations.BcdStoresThreeDigits := by
  intro x s
  obtain ⟨t, ht⟩ := exec_next (.ldB x) s
  have hmem := exec_ldB_memRead ht
  have h01 : maskAddr (s.addrI 0) ≠ maskAddr (s.addrI 1) :=
    s.maskAddr_addrI_ne (by decide) (by decide) (by decide)
  have h02 : maskAddr (s.addrI 0) ≠ maskAddr (s.addrI 2) :=
    s.maskAddr_addrI_ne (by decide) (by decide) (by decide)
  have h12 : maskAddr (s.addrI 1) ≠ maskAddr (s.addrI 2) :=
    s.maskAddr_addrI_ne (by decide) (by decide) (by decide)
  refine ⟨t, ht, ?_, ?_, ?_, fun a h0 h1 h2 => ?_, ?_, exec_keeps ht⟩
  · rw [hmem, if_neg h02, if_neg h01, if_pos rfl, bcdHundreds_toNat]
  · rw [hmem, if_neg h12, if_pos rfl, bcdTens_toNat]
  · rw [hmem, if_pos rfl, bcdOnes_toNat]
  · rw [hmem, if_neg h2, if_neg h1, if_neg h0]
  · cases ht
    rfl

/-! ## Registers to memory and back (R124, R125) -/

/-- `storeRegs_memRead` with the register named by its nibble. -/
theorem State.storeRegs_memRead_reg (s : State) {n : Nat} (hn : n ≤ 16) {r : Nibble} (hr : r.toNat < n) :
    (s.storeRegs n).memRead (s.addrI r.toNat) = s.getV r := by
  rw [s.storeRegs_memRead n r.toNat hr hn, BitVec.ofNat_toNat, BitVec.setWidth_eq]

/-- Settles O32: the loop stores `x + 1` registers, at most all sixteen, so no byte is written twice. -/
theorem registersAreStored : Obligations.RegistersAreStored := by
  intro x s
  exact ⟨_, rfl, fun r hr => s.storeRegs_memRead_reg x.isLt (Nat.lt_succ_of_le hr),
    fun a ha => s.storeRegs_memRead_other _ a fun k hk => ha k (Nat.le_of_lt_succ hk),
    s.storeRegs_nextPc _, (s.keeps_of_storeRegs _).advance⟩

/-- Settles O33: the loop loads `x + 1` registers. -/
theorem registersAreLoaded : Obligations.RegistersAreLoaded := by
  intro x s
  have hv (r : Nibble) : (s.loadRegs (x.toNat + 1)).getV r =
      if r.toNat ≤ x.toNat then s.memRead (s.addrI r.toNat) else s.getV r :=
    (s.loadRegs_getV _ x.isLt r).trans (if_congr Nat.lt_succ_iff rfl rfl)
  exact ⟨_, rfl, hv, s.loadRegs_nextPc _, (s.keeps_of_loadRegs _).advance⟩

/-- The addresses of a transfer depend on I only. -/
theorem State.addrI_congr {s u : State} (h : u.i = s.i) (k : Nat) : u.addrI k = s.addrI k := by
  rw [State.addrI, h, ← State.addrI]

/-- Settles O34: with the same I the load reads each register's byte where the store put it. -/
theorem storeThenLoadRestores : Obligations.StoreThenLoadRestores := by
  intro x s
  obtain ⟨t, hstore, hstored, -⟩ := registersAreStored x s
  refine ⟨t, hstore, fun u hi hmem => ?_⟩
  obtain ⟨w, hload, hloaded, -⟩ := registersAreLoaded x u
  refine ⟨w, hload, fun r hr => ?_⟩
  calc w.getV r = u.memRead (u.addrI r.toNat) := (hloaded r).trans (if_pos hr)
    _ = t.memRead (s.addrI r.toNat) := by rw [hmem, State.addrI_congr hi]
    _ = s.getV r := hstored r hr

end Sys2Proof.Machine
end

section
/-! The statements of spec/43_display.md: the cleared plane (R140), the clipped sprite (R141) and the law that a second
draw undoes the first (R142). -/

namespace Sys2Proof.Machine

/-! ## CLS (R140) -/

/-- Settles O35: CLS puts the cleared plane in place of the old one. -/
theorem clsClearsEveryCell : Obligations.ClsClearsEveryCell :=
  fun _ => ⟨_, rfl, fun px py _ _ => Framebuffer.cell_clear px py, rfl, rfl, exec_keeps (i := .cls) rfl⟩

/-! ## What one draw does (R141) -/

theorem flagByte_eq_one_iff (b : Bool) : flagByte b = 1 ↔ b = true := by
  cases b <;> simp [flagByte]

section
variable {x y n : Nibble} {s t : State} (h : exec (.drw x y n) s = .next t)
include h

theorem exec_drw_cell {px py : Nat} (hpx : px < 64) (hpy : py < 32) :
    Framebuffer.cell t.fb px py = (Framebuffer.cell s.fb px py ^^ s.spriteOn x y n px py) := by
  cases h
  exact s.drawn_cell x y n px py hpx hpy

theorem exec_drw_dirty : t.dirty = true := by
  cases h
  rfl

theorem exec_drw_pc : t.pc = s.nextPc := by
  cases h
  rfl

/-- VF is the rasterizer's collision flag. -/
theorem exec_drw_vf_eq_one_iff :
    t.getV vf = 1 ↔ ∃ px py, px < 64 ∧ py < 32 ∧ s.spriteOn x y n px py = true ∧
      Framebuffer.cell s.fb px py = true := by
  cases h
  rw [State.advance_getV, State.getV_setV_same, collisionFlag, flagByte_eq_one_iff, State.drawn_hit]

theorem exec_drw_keepsRegs : KeepsRegsBut [vf] s t := by
  cases h
  exact State.keepsRegs_of_setV _ vf _

end

/-- Settles O36: VF is 0 or 1, so it is 0 when no sprite bit met a lit cell. -/
theorem drawXorsTheClippedSprite : Obligations.DrawXorsTheClippedSprite := by
  intro x y n s
  obtain ⟨t, ht⟩ := exec_next (.drw x y n) s
  refine ⟨t, ht, fun _ _ => exec_drw_cell ht, (exec_drw_vf_eq_one_iff ht).mpr, fun hnone => ?_,
    exec_drw_dirty ht, exec_drw_pc ht, exec_drw_keepsRegs ht, exec_keeps ht⟩
  refine (exec_flag rfl ht).resolve_right fun hone => ?_
  obtain ⟨px, py, hpx, hpy, hon, hlit⟩ := (exec_drw_vf_eq_one_iff ht).mp hone
  exact Bool.false_ne_true ((hnone px py hpx hpy hon).symm.trans hlit)

/-! ## The second draw (R142) -/

/-- The sprite and its place are read from V, I and memory only. -/
theorem State.spriteOn_congr {s t : State} {x y : Nibble} (hx : t.getV x = s.getV x) (hy : t.getV y = s.getV y)
    (hi : t.i = s.i) (hmem : ∀ a, t.memRead a = s.memRead a) (n : Nibble) (px py : Nat) :
    t.spriteOn x y n px py = s.spriteOn x y n px py := by
  simp only [State.spriteOn, hx, hy, hi, hmem]

/-- A draw leaves its own sprite and the sprite's place alone, unless VF holds a coordinate. -/
theorem exec_drw_spriteOn {x y n : Nibble} {s t : State} (h : exec (.drw x y n) s = .next t) (hx : x ≠ vf)
    (hy : y ≠ vf) (px py : Nat) : t.spriteOn x y n px py = s.spriteOn x y n px py := by
  have hkeep := exec_keeps h
  have hregs := exec_drw_keepsRegs h
  exact State.spriteOn_congr (hregs x (List.mem_singleton.not.mpr hx)) (hregs y (List.mem_singleton.not.mpr hy))
    (hkeep .i (by simp [writtenParts])) (hkeep .mem (by simp [writtenParts])) n px py

/-- Settles O37: the second draw XORs the same bits in again, and a cell under the sprite is lit for it exactly when it
was unlit at the start. -/
theorem drawingTwiceRestores : Obligations.DrawingTwiceRestores := by
  intro x y n s hx hy
  obtain ⟨t, ht⟩ := exec_next (.drw x y n) s
  obtain ⟨u, hu⟩ := exec_next (.drw x y n) t
  have hsprite := exec_drw_spriteOn ht hx hy
  refine ⟨t, u, ht, hu, Framebuffer.ext_cell fun px py hpx hpy => ?_, (exec_drw_vf_eq_one_iff hu).trans ?_⟩
  · rw [exec_drw_cell hu hpx hpy, exec_drw_cell ht hpx hpy, hsprite, Bool.xor_assoc, Bool.xor_self, Bool.xor_false]
  · refine exists_congr fun px => exists_congr fun py => ?_
    refine and_congr_right fun hpx => and_congr_right fun hpy => ?_
    rw [hsprite]
    refine and_congr_right fun hon => ?_
    rw [exec_drw_cell ht hpx hpy, hon, Bool.xor_true, Bool.not_eq_true']

end Sys2Proof.Machine
end

section
/-! The statements of spec/44_keypad_timers.md: key skips (R150, R151), timers (R154 to R156, and R182 during a wait)
and the key wait from its issue to its completion (R152, R153, R185). -/

namespace Sys2Proof.Machine

/-! ## TICK during the wait (R153, R182) -/

theorem countDown_toNat (r : Byte) : (countDown r).toNat = r.toNat - 1 := by
  have := r.isLt
  rw [countDown_eq, BitVec.toNat_ofNat]
  omega

/-- The countdown writes the two timers. -/
theorem State.keeps_of_countTimers (s : State) : KeepsAllBut [.dt, .st] s s.countTimers :=
  (s.keeps_of_dt (countDown s.dt)).trans (State.keeps_of_st _ (countDown s.st))

/-- A TICK in which no fault is recorded counts the timers down after its cycles. -/
theorem tickOf_of_runCycles {n : Nat} {s t : State} (hs : s.fault = none) (ht : t.fault = none)
    (h : runCycles n s = .next t) : tickOf n s = .next t.countTimers := by
  simp [tickOf, hs, h, ht]

theorem runCycles_of_idle {s : State} (h : IdleOnKey s) (n : Nat) : runCycles n s = .next s :=
  (runCycles_eq_run n s).trans (run_of_fixed (cycle_of_idle h) n)

/-- Settles O54: the cycles of an idling core change nothing, so what the TICK does is its countdown. -/
theorem timersTickDuringTheWait : Obligations.TimersTickDuringTheWait :=
  fun n s hs => ⟨s.countTimers, tickOf_of_runCycles hs.1 hs.1 (runCycles_of_idle hs n), countDown_toNat s.dt,
    countDown_toNat s.st, s.keeps_of_countTimers⟩

/-! ## Issue and completion of a key wait (R152, R153) -/

/-- Settles O39: the issuing cycle is one write of the latch. -/
theorem keyWaitIsIssued : Obligations.KeyWaitIsIssued :=
  fun x s => ⟨_, rfl, rfl, s.keeps_of_wait (some x)⟩

theorem idleOnKey_of_wait {s : State} {x : Nibble} (hf : s.fault = none) (hw : s.wait = some x)
    (hk : s.keyEv = none) : IdleOnKey s :=
  ⟨hf, Option.ne_none_iff_exists'.mpr ⟨x, hw⟩, hk⟩

/-- A cycle of a waiting core that has captured key `k`. -/
theorem cycle_completes_wait {s : State} {x k : Nibble} (hf : s.fault = none) (hw : s.wait = some x)
    (hk : s.keyEv = some k) : cycle s = .next (s.completeWait x k) := by
  rw [cycle_of_waiting hf hw, s.waitCycle_some x hk]

theorem State.completeWait_getV_toNat (s : State) (x k : Nibble) :
    ((s.completeWait x k).getV x).toNat = k.toNat :=
  (congrArg BitVec.toNat (s.getV_setV_same x (k.setWidth 8))).trans (zext8_nibble_toNat k)

theorem State.keepsRegs_of_completeWait (s : State) (x k : Nibble) : KeepsRegsBut [x] s (s.completeWait x k) :=
  s.keepsRegs_of_setV x (k.setWidth 8)

theorem State.keeps_of_completeWait {s : State} (x : Nibble) {k : Nibble} (hk : s.keyEv = some k) :
    KeepsAllBut [.v, .wait, .keyEv, .pc] s (s.completeWait x k) :=
  s.waitCycle_some x hk ▸ s.keeps_of_waitCycle x

/-- Settles O8: without an event the cycle idles, with one it completes the wait. -/
theorem keyWaitIdlesThenCompletes : Obligations.KeyWaitIdlesThenCompletes :=
  fun s x hf hw => ⟨fun hk => cycle_of_idle (idleOnKey_of_wait hf hw hk),
    fun k hk => ⟨s.completeWait x k, cycle_completes_wait hf hw hk, s.completeWait_getV_toNat x k,
      s.keepsRegs_of_completeWait x k, rfl, rfl, rfl, State.keeps_of_completeWait x hk⟩⟩

/-! ## PRESS during the wait (R185) -/

/-- A key already down makes no transition. -/
theorem press_of_down {s : State} {k : Nibble} (h : s.key k = true) : press k s = s :=
  if_pos h

/-- A released key pressed during the wait, before any other, is captured. -/
theorem press_of_captures {s : State} {k x : Nibble} (h : s.key k = false) (hw : s.wait = some x)
    (hk : s.keyEv = none) : press k s = { s.setKey k true with keyEv := some k } := by
  simp [press, h, hw, hk]

theorem State.keeps_of_capture (s : State) (k : Nibble) :
    KeepsAllBut [.keys, .keyEv] s { s.setKey k true with keyEv := some k } := by
  intro p hp
  cases p <;> simp [Part.same, State.setKey, State.getV, State.memRead] at hp ⊢

/-! ## The whole wait -/

/-- One command at the front of a sequence. -/
theorem runCommandsOf_cons {n : Nat} {c : Command} {s t : State} (h : commandOf n c s = .next t)
    (cs : List Command) : runCommandsOf n (c :: cs) s = runCommandsOf n cs t := by
  rw [runCommandsOf, h]

theorem runCommandsOf_step {n : Nat} {s t : State} (h : step s = .next t) (cs : List Command) :
    runCommandsOf n (.step :: cs) s = runCommandsOf n cs t :=
  runCommandsOf_cons (c := .step) h cs

theorem runCommandsOf_press {n : Nat} {k : Nibble} {s t : State} (h : press k s = t) (cs : List Command) :
    runCommandsOf n (.press k :: cs) s = runCommandsOf n cs t :=
  runCommandsOf_cons (c := .press k) (congrArg Host.Outcome.next h) cs

theorem State.key_congr {s t : State} (h : t.keys = s.keys) (j : Nibble) : t.key j = s.key j := by
  unfold State.key
  simp only [h]

/-- A part that has the value it had need not be listed. -/
theorem KeepsAllBut.of_cons {p : Part} {ps : List Part} {s t : State} (h : KeepsAllBut (p :: ps) s t)
    (hp : p.same s t) : KeepsAllBut ps s t := by
  intro q hq
  by_cases hqp : q = p
  · exact hqp ▸ hp
  · exact h q (List.not_mem_cons_of_ne_of_not_mem hqp hq)

section
variable {w : State} {x k : Nibble} (n : Nat) (hf : w.fault = none) (hw : w.wait = some x) (hev : w.keyEv = none)
include hf hw hev

/-- From an idling wait, a STEP changes nothing, the PRESS of a released key is captured, and a STEP completes the
wait; the event ends as it began, `None`. -/
theorem released_key_ends_wait (hup : w.key k = false) :
    ∃ t, runCommandsOf n [.step, .press k, .step] w = .next t ∧ (t.getV x).toNat = k.toNat ∧ t.pc = w.nextPc ∧
      t.wait = none ∧ t.keyEv = none ∧ KeepsRegsBut [x] w t ∧
      (∀ j, t.key j = if j = k then true else w.key j) ∧ KeepsAllBut [.wait, .v, .pc, .keys] w t := by
  have hidle : step w = .next w := cycle_of_idle (idleOnKey_of_wait hf hw hev)
  obtain ⟨t, hdone, hv, hregs, htw, hte, hpc, hframe⟩ := (keyWaitIdlesThenCompletes
    { w.setKey k true with keyEv := some k } x hf hw).2 k rfl
  have hrun : runCommandsOf n [.step, .press k, .step] w = .next t := by
    rw [runCommandsOf_step hidle, runCommandsOf_press (press_of_captures hup hw hev), runCommandsOf_step hdone,
      runCommandsOf]
  have hkeys : ∀ j, t.key j = if j = k then true else w.key j := fun j =>
    (State.key_congr (hframe .keys (by decide)) j).trans (w.key_setKey k j true)
  have hkeeps : KeepsAllBut [.keyEv, .wait, .v, .pc, .keys] w t :=
    ((w.keeps_of_capture k).trans hframe).mono (by decide)
  exact ⟨t, hrun, hv, hpc, htw, hte, hregs, hkeys, hkeeps.of_cons (hte.trans hev.symm)⟩

/-- The PRESS of a key already down leaves the core idling. -/
theorem held_key_keeps_wait (hdown : w.key k = true) : runCommandsOf n [.press k, .step] w = .next w := by
  have hidle : step w = .next w := cycle_of_idle (idleOnKey_of_wait hf hw hev)
  rw [runCommandsOf_press (press_of_down hdown), runCommandsOf_step hidle, runCommandsOf]

end

/-- Settles O56: the first STEP sets the latch only, and what follows is told of every idling wait; a completed wait
leaves the latch as it was before the issue, `None`. -/
theorem keyWaitEndsByATransition : Obligations.KeyWaitEndsByATransition := by
  rintro n x k s ⟨hf, hw⟩ hev hd
  have hissue : step s = .next { s with wait := some x } := cycle_of_decode ⟨hf, hw⟩ hd
  refine ⟨fun hup => ?_, fun hdown => ?_⟩
  · obtain ⟨t, hrun, hv, hpc, htw, hte, hregs, hkeys, hkeeps⟩ :=
      released_key_ends_wait (w := { s with wait := some x }) n hf rfl hev hup
    have hframe : KeepsAllBut [.wait, .v, .pc, .keys] s t := ((s.keeps_of_wait (some x)).trans hkeeps).mono (by decide)
    exact ⟨t, (runCommandsOf_step hissue _).trans hrun, hv, hpc, htw, hte, hregs, hkeys,
      hframe.of_cons (htw.trans hw.symm)⟩
  · exact (runCommandsOf_step hissue _).trans (held_key_keeps_wait (w := { s with wait := some x }) n hf rfl hev hdown)

/-! ## The key skips (R150, R151) -/

/-- Settles O25: SKP and SKNP are the two skips on the level of one key. -/
theorem keySkips : Obligations.KeySkips := by
  intro x s
  rw [← s.keyIndex_eq x]
  exact ⟨exec_skips_if rfl Iff.rfl, exec_skips_if_not rfl Bool.not_iff_not⟩

/-! ## Reading and writing the timers (R154 to R156) -/

/-- Settles O38: one write of a register or of a timer, then PC; the sound output is read off ST. -/
theorem timerAccess : Obligations.TimerAccess :=
  fun x s => ⟨exec_sets_reg rfl, ⟨_, rfl, rfl, rfl, (s.keeps_of_dt (s.getV x)).advance⟩,
    ⟨_, rfl, rfl, decide_eq_true_iff, rfl, (s.keeps_of_st (s.getV x)).advance⟩⟩

end Sys2Proof.Machine
end

section
/-! The statements of spec/60_exceptions.md: the faults and the halt (R171 to R176), STEP and TICK (R182, R183), the
keypad commands and CONSUME_DIRTY (R185, R186), the random source (R187), LOAD (R188), and the wait that only a press
leads out of (R192). -/

namespace Sys2Proof.Machine

/-! ## Faults of a cycle and of the stack (R173 to R175) -/

/-- Settles O6: the branch of a cycle whose word is rejected is one raise. -/
theorem unknownOpcodeIsRecorded : Obligations.UnknownOpcodeIsRecorded :=
  fun _ _ hs hd => cycle_of_reject hs hd

/-- Settles O28: a call at the limit and a return from the empty stack are one raise each. -/
theorem stackFaultsAreRecorded : Obligations.StackFaultsAreRecorded :=
  fun nnn _ => ⟨execCall_full nnn, execRet_empty⟩

/-! ## Keys and timers under STEP (R183) -/

theorem keys_notMem_writtenParts (i : Instr) : Part.keys ∉ writtenParts i := by
  cases i <;> simp [writtenParts]

theorem mem_writtenParts_dt {i : Instr} (h : Part.dt ∈ writtenParts i) : ∃ x, i = .ldDtVx x := by
  cases i <;> simp [writtenParts] at h ⊢

theorem mem_writtenParts_st {i : Instr} (h : Part.st ∈ writtenParts i) : ∃ x, i = .ldStVx x := by
  cases i <;> simp [writtenParts] at h ⊢

/-- A part that changed is one the instruction's rule writes. -/
theorem mem_writtenParts_of_not_same {i : Instr} {s t : State} {p : Part} (h : exec i s = .next t)
    (hp : ¬ p.same s t) : p ∈ writtenParts i := by
  by_contra hi
  exact hp (exec_keeps h p hi)

/-- The instruction that changed DT is an `Fx15`, and DT is its register. -/
theorem exec_dt_ne {i : Instr} {s t : State} (h : exec i s = .next t) (hdt : t.dt ≠ s.dt) :
    ∃ x, i = .ldDtVx x ∧ t.dt = s.getV x := by
  obtain ⟨x, rfl⟩ := mem_writtenParts_dt (mem_writtenParts_of_not_same (p := .dt) h hdt)
  cases h
  exact ⟨x, rfl, rfl⟩

/-- The instruction that changed ST is an `Fx18`, and ST is its register. -/
theorem exec_st_ne {i : Instr} {s t : State} (h : exec i s = .next t) (hst : t.st ≠ s.st) :
    ∃ x, i = .ldStVx x ∧ t.st = s.getV x := by
  obtain ⟨x, rfl⟩ := mem_writtenParts_st (mem_writtenParts_of_not_same (p := .st) h hst)
  cases h
  exact ⟨x, rfl, rfl⟩

/-- Settles O42: the branches of a cycle that run no instruction write neither keys nor timers, and of the
instructions only the two timer writes do. -/
theorem stepNeverCountsTimersDown : Obligations.StepNeverCountsTimersDown := by
  intro s
  rcases cycle_cases s with ⟨-, h⟩ | ⟨x, -, -, h⟩ | ⟨hr, i, hd, h⟩ | ⟨-, e, -, h⟩
  · exact ⟨_, h, rfl, absurd rfl, absurd rfl⟩
  · have hkeep := s.keeps_of_waitCycle x
    exact ⟨_, h, hkeep .keys (by decide), absurd (hkeep .dt (by decide)), absurd (hkeep .st (by decide))⟩
  · obtain ⟨t, ht⟩ := exec_next i s
    refine ⟨t, h.trans ht, exec_keeps ht .keys (keys_notMem_writtenParts i), fun hdt => ⟨hr, ?_⟩,
      fun hst => ⟨hr, ?_⟩⟩
    · obtain ⟨x, rfl, hx⟩ := exec_dt_ne ht hdt
      exact ⟨x, hd, hx⟩
    · obtain ⟨x, rfl, hx⟩ := exec_st_ne ht hst
      exact ⟨x, hd, hx⟩
  · exact ⟨_, h, rfl, absurd rfl, absurd rfl⟩

/-! ## The random source (R187) -/

section
variable (s : State) (g : Rng)

theorem State.drawn_with_rng (x y n : Nibble) : { s with rng := g }.drawn x y n = s.drawn x y n :=
  State.plotRows_congr (s := s) (t := { s with rng := g }) rfl rfl _ _ _ _

theorem State.storeRegs_with_rng (n : Nat) :
    { s with rng := g }.storeRegs n = { s.storeRegs n with rng := g } := by
  induction n with
  | zero => rfl
  | succ k ih => rw [State.storeRegs, ih]; rfl

theorem State.loadRegs_with_rng (n : Nat) :
    { s with rng := g }.loadRegs n = { s.loadRegs n with rng := g } := by
  induction n with
  | zero => rfl
  | succ k ih => rw [State.loadRegs, ih]; rfl

end

theorem exec_ret_with_rng {s t : State} (h : exec .ret s = .next t) (g : Rng) :
    exec .ret { s with rng := g } = .next { t with rng := g } := by
  rcases exec_ret_cases h with ⟨hz, rfl⟩ | ⟨hp, rfl⟩
  · exact execRet_empty (s := { s with rng := g }) hz
  · exact execRet_pop (s := { s with rng := g }) hp

theorem exec_call_with_rng {nnn : Addr} {s t : State} (h : exec (.call nnn) s = .next t) (g : Rng) :
    exec (.call nnn) { s with rng := g } = .next { t with rng := g } := by
  rcases exec_call_cases h with ⟨hf, rfl⟩ | ⟨hp, rfl⟩
  · exact execCall_full (s := { s with rng := g }) nnn hf
  · exact execCall_push (s := { s with rng := g }) nnn hp

/-- An instruction other than RND does the same with another generator, and leaves that generator alone. -/
theorem exec_with_rng {i : Instr} {s t : State} (hi : ∀ x kk, i ≠ .rnd x kk) (h : exec i s = .next t) (g : Rng) :
    exec i { s with rng := g } = .next { t with rng := g } := by
  cases i with
  | rnd x kk => exact absurd rfl (hi x kk)
  | ret => exact exec_ret_with_rng h g
  | call nnn => exact exec_call_with_rng h g
  | drw x y n =>
    cases h
    rw [exec, execDrw, State.drawn_with_rng]
    rfl
  | stRegs x =>
    cases h
    rw [exec, execStRegs, State.storeRegs_with_rng]
    rfl
  | ldRegs x =>
    cases h
    rw [exec, execLdRegs, State.loadRegs_with_rng]
    rfl
  | _ => cases h; rfl

/-- Settles O44: `exec_with_rng` at the answer of each instruction. -/
theorem onlyRndTouchesTheRandomSource : Obligations.OnlyRndTouchesTheRandomSource := by
  intro i s g hi
  obtain ⟨t, ht⟩ := exec_next i s
  exact ⟨t, ht, exec_with_rng hi ht g⟩

/-! ## LOAD (R188, R176) -/

theorem load_of_halted {s : State} (h : Halted s) (bytes : List Byte) : load bytes s = s :=
  if_pos (Option.isSome_iff_ne_none.mpr h)

theorem load_of_large {s : State} {bytes : List Byte} (hf : s.fault = none) (hl : bytes.length > 3584) :
    load bytes s = s.raise .loadTooLarge := by
  simp [load, hf, maxProgramBytes, hl]

theorem load_of_fits {s : State} {bytes : List Byte} (hf : s.fault = none) (hl : bytes.length ≤ 3584) :
    load bytes s = s.memWriteList 0x200 bytes := by
  simp [load, hf, maxProgramBytes, hl]

theorem loadReport_of_fault {s : State} {f : FaultRecord} (hf : s.fault = some f) (bytes : List Byte) :
    loadReport bytes s = .halted f := by
  rw [loadReport, hf]

theorem loadReport_of_large {s : State} {bytes : List Byte} (hf : s.fault = none) (hl : bytes.length > 3584) :
    loadReport bytes s = .tooLarge := by
  simp [loadReport, hf, maxProgramBytes, hl]

theorem loadReport_of_fits {s : State} {bytes : List Byte} (hf : s.fault = none) (hl : bytes.length ≤ 3584) :
    loadReport bytes s = .ok := by
  simp [loadReport, hf, maxProgramBytes, hl]

/-- Settles O51: LOAD of a large image is one raise. -/
theorem loadRejectsLargeImages : Obligations.LoadRejectsLargeImages :=
  fun _ _ _ hf hl =>
    ⟨congrArg Host.Outcome.next (load_of_large hf hl), congrArg Reply.loaded (loadReport_of_large hf hl)⟩

theorem State.keeps_of_memWriteList (s : State) (a : Nat) (bytes : List Byte) :
    KeepsAllBut [.mem] s (s.memWriteList a bytes) := by
  induction bytes generalizing s a with
  | nil => exact KeepsAllBut.refl _ s
  | cons b bs ih => exact ((s.keeps_of_memWrite a b).trans (ih _ _)).mono (by decide)

theorem keeps_of_load (bytes : List Byte) (s : State) : KeepsAllBut [.mem, .fault] s (load bytes s) := by
  rcases load_cases bytes s with h | h | h <;> rw [h]
  · exact KeepsAllBut.refl _ s
  · exact (s.keeps_of_raise _).mono (by decide)
  · exact (s.keeps_of_memWriteList _ _).mono (by decide)

/-- An image that fits ends by the last address, so no address of the copy wraps. -/
theorem maskAddr_image {j l : Nat} (hj : j < l) (hl : l ≤ 3584) : maskAddr (0x200 + j) = 0x200 + j :=
  maskAddr_of_lt (by omega)

/-- Settles O52: LOAD of an image that fits is the loader's copy, whose addresses do not wrap. -/
theorem loadCopiesTheImage : Obligations.LoadCopiesTheImage := by
  intro n bytes s hf hl
  refine ⟨_, congrArg Host.Outcome.next (load_of_fits hf hl), congrArg Reply.loaded (loadReport_of_fits hf hl),
    fun j hj => State.memRead_memWriteList bytes s 0x200 j (by omega) hj,
    fun a ha => State.memRead_memWriteList_other bytes s 0x200 a fun j hj => ?_, s.keeps_of_memWriteList 0x200 bytes⟩
  rw [maskAddr_image hj hl]
  omega

/-! ## TICK (R182, R172) -/

theorem tickOf_of_halted {s : State} (h : Halted s) (n : Nat) : tickOf n s = .next s :=
  if_pos (Option.isSome_iff_ne_none.mpr h)

/-- A TICK whose cycles recorded a fault does not count the timers down. -/
theorem tickOf_of_runCycles_halted {n : Nat} {s t : State} (hs : s.fault = none) (ht : Halted t)
    (h : runCycles n s = .next t) : tickOf n s = .next t := by
  simp [tickOf, hs, h, Option.isSome_iff_ne_none.mpr ht]

theorem State.countTimers_eq (s : State) : s.countTimers =
    { s with dt := BitVec.ofNat 8 (s.dt.toNat - 1), st := BitVec.ofNat 8 (s.st.toNat - 1) } := by
  rw [State.countTimers, countDown_eq, countDown_eq]

/-- TICK after its cycles, whatever it found: a machine halted before them is halted, and the same, after them. -/
theorem tickOf_eq_of_runCycles {n : Nat} {s t : State} (h : runCycles n s = .next t) :
    tickOf n s = .next (if t.fault = none then t.countTimers else t) := by
  by_cases hs : s.fault = none
  · split_ifs with ht
    · exact tickOf_of_runCycles hs ht h
    · exact tickOf_of_runCycles_halted hs ht h
  · have hfix : runCycles n s = .next s := (runCycles_eq_run n s).trans (run_of_fixed (cycle_of_halted hs) n)
    cases h.symm.trans hfix
    rw [if_neg hs, tickOf_of_halted hs]

/-- Settles O53: the cycles of a TICK are `n` steps, and the countdown is a truncated subtraction. -/
theorem tickIsCyclesThenCountdown : Obligations.TickIsCyclesThenCountdown := by
  intro n s
  obtain ⟨t, ht⟩ := runCycles_next n s
  exact ⟨t, (runCycles_eq_run n s).symm.trans ht, t.countTimers_eq ▸ tickOf_eq_of_runCycles ht⟩

/-! ## PRESS, RELEASE, CONSUME_DIRTY (R185, R186) -/

section
variable (s : State)

theorem State.keeps_of_setKey (k : Nibble) (b : Bool) : KeepsAllBut [.keys] s (s.setKey k b) := by
  intro p hp
  cases p <;> simp [Part.same] at hp ⊢

theorem State.keeps_of_keyEv (e : Option Nibble) : KeepsAllBut [.keyEv] s { s with keyEv := e } := by
  intro p hp
  cases p <;> simp [Part.same, State.getV, State.memRead] at hp ⊢

theorem State.keeps_of_dirty (d : Bool) : KeepsAllBut [.dirty] s { s with dirty := d } := by
  intro p hp
  cases p <;> simp [Part.same, State.getV, State.memRead] at hp ⊢

end

/-- The PRESS of a released key sets its level, and the event if the core waits and has captured none. -/
theorem press_of_up {s : State} {k : Nibble} (h : s.key k = false) :
    press k s = { s.setKey k true with
      keyEv := if s.wait ≠ none ∧ s.keyEv = none then some k else s.keyEv } := by
  have hc : (s.wait.isSome && s.keyEv.isNone) = true ↔ s.wait ≠ none ∧ s.keyEv = none := by
    rw [Bool.and_eq_true, Option.isSome_iff_ne_none, Option.isNone_iff_eq_none]
  unfold press
  rw [h, if_neg Bool.false_ne_true]
  dsimp only
  by_cases hcap : s.wait ≠ none ∧ s.keyEv = none
  · rw [if_pos (hc.mpr hcap), if_pos hcap]
  · rw [if_neg (mt hc.mp hcap), if_neg hcap]
    rfl

theorem press_key (s : State) (k j : Nibble) : (press k s).key j = if j = k then true else s.key j := by
  cases hk : s.key k with
  | false =>
    rw [press_of_up hk]
    exact s.key_setKey k j true
  | true =>
    rw [press_of_down hk]
    split_ifs with hj
    · rw [hj, hk]
    · rfl

theorem press_keyEv (s : State) (k : Nibble) :
    (press k s).keyEv =
      if s.key k = false ∧ s.wait ≠ none ∧ s.keyEv = none then some k else s.keyEv := by
  cases hk : s.key k with
  | false =>
    rw [press_of_up hk]
    exact if_congr (and_iff_right rfl).symm rfl rfl
  | true => rw [press_of_down hk, if_neg (fun h => Bool.false_ne_true h.1.symm)]

theorem keeps_of_press (k : Nibble) (s : State) : KeepsAllBut [.keys, .keyEv] s (press k s) := by
  cases hk : s.key k with
  | false =>
    rw [press_of_up hk]
    exact (s.keeps_of_setKey k true).trans (State.keeps_of_keyEv _ _)
  | true =>
    rw [press_of_down hk]
    exact KeepsAllBut.refl _ s

/-- Settles O55: what each of the three commands writes, and its frame. -/
theorem keypadAndDirtyCommands : Obligations.KeypadAndDirtyCommands :=
  fun _ k s => ⟨⟨_, rfl, press_key s k, press_keyEv s k, keeps_of_press k s⟩,
    ⟨_, rfl, fun j => s.key_setKey k j false, s.keeps_of_setKey k false⟩,
    ⟨_, rfl, rfl, rfl, s.keeps_of_dirty false⟩⟩

/-! ## The halted machine (R172) -/

/-- Settles O7: STEP, TICK and LOAD look for the fault first, and the three other commands do not write the record. -/
theorem haltedMachineIsFrozen : Obligations.HaltedMachineIsFrozen := by
  intro s f n hf
  have hh : Halted s := Option.ne_none_iff_exists'.mpr ⟨f, hf⟩
  have hstep : step s = .next s := cycle_of_halted hh
  have htick : tickOf n s = .next s := tickOf_of_halted hh n
  have hload (bytes : List Byte) : commandOf n (.load bytes) s = .next s :=
    congrArg Host.Outcome.next (load_of_halted hh bytes)
  refine ⟨hstep, htick, fun bytes => ⟨hload bytes, congrArg Reply.loaded (loadReport_of_fault hf bytes)⟩,
    fun c hc => ?_⟩
  cases c with
  | reset seed => exact absurd rfl (hc seed)
  | load bytes => exact ⟨s, hload bytes, hf⟩
  | tick => exact ⟨s, htick, hf⟩
  | step => exact ⟨s, hstep, hf⟩
  | press k => exact ⟨_, rfl, (keeps_of_press k s .fault (by decide)).trans hf⟩
  | release _ | consumeDirty => exact ⟨_, rfl, hf⟩

/-! ## The wait without an event (R192, R153) -/

/-- A wait with no event captured keeps a cycle from doing anything, halted or not. -/
theorem cycle_of_wait_keyEv_none {s : State} {x : Nibble} (hw : s.wait = some x) (hk : s.keyEv = none) :
    cycle s = .next s := by
  by_cases hf : s.fault = none
  · exact cycle_of_idle (idleOnKey_of_wait hf hw hk)
  · exact cycle_of_halted hf

/-- The latch `x` with no event captured. -/
def WaitsWithoutEvent (x : Nibble) (s : State) : Prop := s.wait = some x ∧ s.keyEv = none

theorem cycle_waitsWithoutEvent (x : Nibble) (s t : State) (hs : WaitsWithoutEvent x s)
    (h : cycle s = .next t) : WaitsWithoutEvent x t := by
  cases h.symm.trans (cycle_of_wait_keyEv_none hs.1 hs.2)
  exact hs

/-- Only a PRESS can change what the core waits for or has captured; every other command but RESET leaves both. -/
theorem commandOf_waitsWithoutEvent {n : Nat} {c : Command} {x : Nibble} {s t : State}
    (hreset : ∀ seed, c ≠ .reset seed) (hpress : ∀ k, c ≠ .press k) (hs : WaitsWithoutEvent x s)
    (h : commandOf n c s = .next t) : WaitsWithoutEvent x t := by
  cases c with
  | reset seed => exact absurd rfl (hreset seed)
  | press k => exact absurd rfl (hpress k)
  | load bytes =>
    cases h
    have hkeep := keeps_of_load bytes s
    exact ⟨(hkeep .wait (by decide)).trans hs.1, (hkeep .keyEv (by decide)).trans hs.2⟩
  | tick => exact tickOf_keeps (cycle_waitsWithoutEvent x) (fun _ hu => hu) n s t hs h
  | step => exact cycle_waitsWithoutEvent x s t hs h
  | release _ | consumeDirty => cases h; exact hs

/-- Settles O57: a PRESS keeps the latch and captures only a released key, the other commands keep latch and
event. -/
theorem onlyAPressLeadsOutOfTheWait : Obligations.OnlyAPressLeadsOutOfTheWait := by
  intro n c x s t hreset hw hk h
  by_cases hc : ∃ k, c = .press k
  · obtain ⟨k, rfl⟩ := hc
    cases h
    refine ⟨(keeps_of_press k s .wait (by decide)).trans hw, fun hev => ⟨k, rfl, ?_⟩⟩
    rw [press_keyEv] at hev ⊢
    split_ifs at hev ⊢ with hcap
    · exact ⟨hcap.1, rfl⟩
    · exact absurd hk hev
  · obtain ⟨htw, htk⟩ := commandOf_waitsWithoutEvent hreset (not_exists.mp hc) ⟨hw, hk⟩ h
    exact ⟨htw, absurd htk⟩

end Sys2Proof.Machine
end

section
/-! The statements of spec/70_reset_and_hazards.md: what RESET answers (R210, R211), the boot with no image loaded
(R212) and the end of a run (R220). -/

namespace Sys2Proof.Machine

/-! ## Reset values (R26, R42, R43) -/

/-- The font ends where the zeros above it begin. -/
theorem resetByte_outside_font {a : Nat} (h : a < 0x050 ∨ 0x0A0 ≤ a) : resetByte a = 0 := by
  unfold resetByte
  split_ifs with hfont
  · have hend : fontTable.length ≤ a - 0x050 := by
      change 80 ≤ a - 0x050
      omega
    exact List.getD_eq_default _ _ hend
  · rfl

/-- Reset memory lists nothing. -/
theorem State.memRead_resetWith (seed a : Nat) : (State.resetWith seed).memRead a = resetByte (maskAddr a) := rfl

theorem State.memRead_resetWith_outside_font (seed : Nat) {a : Nat} (h : maskAddr a < 0x050 ∨ 0x0A0 ≤ maskAddr a) :
    (State.resetWith seed).memRead a = 0 :=
  (State.memRead_resetWith seed a).trans (resetByte_outside_font h)

theorem State.getV_resetWith (seed : Nat) (r : Nibble) : (State.resetWith seed).getV r = 0 :=
  Vector.getElem_replicate _

theorem State.slot_resetWith (seed : Nat) (k : Fin 16) : (State.resetWith seed).stack[k] = 0 :=
  Vector.getElem_replicate _

theorem State.key_resetWith (seed : Nat) (k : Nibble) : (State.resetWith seed).key k = false :=
  Vector.getElem_replicate _

/-- The plane after reset is the one CLS leaves. -/
theorem State.cell_resetWith (seed px py : Nat) : Framebuffer.cell (State.resetWith seed).fb px py = false :=
  Framebuffer.cell_clear px py

/-- Settles O50: RESET answers `State.resetWith`, which does not name the state before; its vectors and its memory
outside the font are the lemmas above, every other value stands in its definition. -/
theorem resetIsAFreshConstruction : Obligations.ResetIsAFreshConstruction := fun _ seed _ =>
  ⟨fun _ => rfl, State.resetWith seed, rfl, State.getV_resetWith seed, rfl, rfl, rfl, State.slot_resetWith seed, rfl,
    rfl, fun _ ha => State.memRead_resetWith_outside_font seed ha, rfl,
    fun px py _ _ => State.cell_resetWith seed px py, State.key_resetWith seed, rfl, rfl, rfl, rfl, rfl, rfl⟩

/-! ## Boot with no image (R212) -/

/-- A run through zero words changes PC only. The zeros are read from the address in PC on, past the wrap at 4096. -/
theorem run_through_zeros (n : Nat) {s : State} (hs : Running s) (hpc : s.pc.toNat < 4096)
    (hzero : ∀ j < 2 * n, s.memRead (s.pc.toNat + j) = 0) :
    Host.Core.run Sys2Proof.core n s = .next { s with pc := BitVec.ofNat 16 ((s.pc.toNat + 2 * n) % 4096) } := by
  induction n generalizing s with
  | zero =>
    have hsame : BitVec.ofNat 16 ((s.pc.toNat + 2 * 0) % 4096) = s.pc := by
      rw [Nat.mul_zero, Nat.add_zero, Nat.mod_eq_of_lt hpc, BitVec.ofNat_toNat, BitVec.setWidth_eq]
    rw [hsame]
    rfl
  | succ n ih =>
    have hstep : step s = .next s.advance :=
      zeroWordOnlyAdvances s hs (hzero 0 (by omega)) (hzero 1 (by omega))
    have hpc' : s.advance.pc.toNat = (s.pc.toNat + 2) % 4096 := s.nextPc_toNat
    have hzero' : ∀ j < 2 * n, s.advance.memRead (s.advance.pc.toNat + j) = 0 := fun j hj => by
      have haddr : maskAddr (s.advance.pc.toNat + j) = maskAddr (s.pc.toNat + (j + 2)) := by
        unfold maskAddr
        omega
      rw [State.advance_memRead, ← State.memRead_maskAddr, haddr, State.memRead_maskAddr]
      exact hzero (j + 2) (by omega)
    have hend : (s.advance.pc.toNat + 2 * n) % 4096 = (s.pc.toNat + 2 * (n + 1)) % 4096 := by omega
    calc Host.Core.run Sys2Proof.core (n + 1) s
        = Host.Core.run Sys2Proof.core n s.advance := run_succ hstep n
      _ = .next { s.advance with pc := BitVec.ofNat 16 ((s.advance.pc.toNat + 2 * n) % 4096) } :=
        ih hs (by omega) hzero'
      _ = .next { s with pc := BitVec.ofNat 16 ((s.pc.toNat + 2 * (n + 1)) % 4096) } := by
        rw [hend]
        rfl

/-- The 1832 words from 0x200 up, and from 0x000 on to the font, are zero after reset. -/
theorem run_reset_to_font :
    Host.Core.run Sys2Proof.core 1832 State.reset = .next { State.reset with pc := 0x050 } := by
  refine run_through_zeros 1832 ⟨rfl, rfl⟩ (by decide) fun j hj => State.memRead_resetWith_outside_font _ ?_
  change (0x200 + j) % 4096 < 0x050 ∨ 0x0A0 ≤ (0x200 + j) % 4096
  omega

/-- The first two bytes of the font are no instruction: no row of `Fxkk` has kk = 0x90 (R65, R43). -/
theorem step_at_font : step { State.reset with pc := 0x050 } =
    .next { State.reset with pc := 0x050, fault := some ⟨.unknownOpcode, 0x050⟩ } :=
  cycle_of_reject ⟨rfl, rfl⟩ ((rejected_topF_iff 0x0 0x9 0x0).mpr (by decide))

/-- Settles O58: the run through the zero words, and one step more. -/
theorem bootWithoutImageReachesTheFont : Obligations.BootWithoutImageReachesTheFont :=
  ⟨run_reset_to_font, (run_add 1832 1 run_reset_to_font).trans (run_succ step_at_font 0)⟩

/-! ## The end of a run (R220) -/

theorem State.jumpTo_self (s : State) : s.jumpTo s.pc = s := rfl

/-- Settles O59: the cycle is a jump to PC. -/
theorem finishedProgramsStayPut : Obligations.FinishedProgramsStayPut := by
  rintro s ⟨hrun, nnn, hdecode, htarget⟩
  calc step s
      = .next (s.jumpTo (immAddr nnn)) := cycle_of_decode hrun hdecode
    _ = .next s := by rw [htarget, s.jumpTo_self]

end Sys2Proof.Machine
end
